-- ==== Sys2Proof/Word.lean ====
section
/-! DEFINITION. The engine's plain data widths (spec/00_scope.md R8, R10; spec/10_state.md R21): a byte,
a 32-bit word, the 64-bit byte counter, and five words held together. -/

namespace Sys2Proof

/-- A byte: 8 bits, unsigned (R12). -/
abbrev Byte := BitVec 8

/-- A word: 32 bits, unsigned (R10). -/
abbrev Word := BitVec 32

/-- The total-byte counter `LEN` and the bit count: 64 bits, unsigned (R27, R79). -/
abbrev Counter := BitVec 64

/-- Five 32-bit words A, B, C, D, E: the chaining state `H[0..4]` (R21), and equally the working
variables `a` to `e` (R23) and the state operand and result of a compression (R100). -/
structure Chain where
  a : Word
  b : Word
  c : Word
  d : Word
  e : Word
  deriving DecidableEq, Repr

end Sys2Proof
end

