-- ==== Sys2Proof/Config.lean ====
section
/-! DEFINITION. The parameters of spec/00_scope.md R8 and R9 that a rule computes with. None is
configurable (R8). The open parameters `FRAMING` and `BUS_BINDING` (R9) have no value here: no rule
depends on them (log entry 7). No rule leaves a result undefined, so there is no free value. -/

namespace Sys2Proof.Config

/-- `BLOCK_BYTES`, bytes per block (R8). -/
def blockBytes : Nat := 64

/-- `BLOCK_WORDS`, words loaded from a block (R8). -/
def blockWords : Nat := 16

/-- `SCHED_WORDS`, message-schedule length (R8). -/
def schedWords : Nat := 80

/-- `ROUNDS`, rounds per block (R8). -/
def rounds : Nat := 80

/-- Rounds of one phase: 80 rounds in 4 phases of 20 (R8, R80). -/
def phaseRounds : Nat := 20

/-- `DIGEST_BYTES`, and equally the bytes of a state operand (R8, R70). -/
def digestBytes : Nat := 20

end Sys2Proof.Config
end

