-- ==== Sys2Proof/Syntax.lean ====
section
/-! DEFINITION. The instruction set: one constructor of `Instr` per row of spec/opcode_table.json, the
encoded forms (`Code`) in the table's selector spaces, and the reasons the decoder gives. -/

namespace Sys2Proof

/-- One constructor per row of the opcode table: the four host commands (spec/30_encoding.md R71), then the
ten internal steps of a block compression and of FINALIZE (R80, R81, R83). -/
inductive Instr where
  /-- INIT, `new()`; format N (R141). -/
  | init
  /-- UPDATE `data`; format B (R142). -/
  | update (data : List Byte)
  /-- FINALIZE; format N (R162). -/
  | finalize
  /-- COMPRESS; format S. The payload is kept whole, so that one of a malformed length can be written
  and meets its fault (R112, R183). -/
  | compress (payload : List Byte)
  /-- LOADW, load schedule word `t` from the block (R101). -/
  | loadw (t : Nat)
  /-- SCHED, expand schedule word `t` (R102). -/
  | sched (t : Nat)
  /-- INITV, initialise the working variables (R103). -/
  | initv
  /-- ROUND_CH, round `t` of phase 0 (R105). -/
  | roundCh (t : Nat)
  /-- ROUND_PAR1, round `t` of phase 1 (R106). -/
  | roundPar1 (t : Nat)
  /-- ROUND_MAJ, round `t` of phase 2 (R107). -/
  | roundMaj (t : Nat)
  /-- ROUND_PAR2, round `t` of phase 3 (R108). -/
  | roundPar2 (t : Nat)
  /-- FEEDFWD, the feed-forward addition (R109). -/
  | feedfwd
  /-- PAD1, padding into one trailing block (R160, R161). -/
  | pad1
  /-- PAD2, padding into two trailing blocks (R160, R161). -/
  | pad2
  deriving DecidableEq, Repr

/-- What selects an instruction, in the spaces of the table's column "space". -/
inductive Code where
  /-- A host command: the 8-bit code `OP`, then the payload (R70). -/
  | command (op : Byte) (payload : List Byte)
  /-- The schedule selector `s` at schedule index `t` (R81). -/
  | schedule (s : BitVec 1) (t : Nat)
  /-- INITV has no selector: a fixed step before round 0. -/
  | initv
  /-- The round phase selector `p` at round index `t` (R80). -/
  | round (p : BitVec 2) (t : Nat)
  /-- FEEDFWD has no selector: a fixed step after round 79. -/
  | feedfwd
  /-- The padding selector `q` (R83). -/
  | padding (q : BitVec 1)
  deriving DecidableEq, Repr

/-- Why the decoder reads no instruction. -/
inductive Reject where
  /-- A byte sequence with no code byte is no command (R70). -/
  | noCode
  /-- Codes 0x04 to 0xFF are reserved (R72). -/
  | reservedCode
  /-- INIT or FINALIZE with a non-empty payload (R72). -/
  | payloadOnFormatN
  /-- A schedule selector that is not the one of its index, or no schedule index (R81). -/
  | scheduleSelector
  /-- A phase selector that is not the one of its index, or no round index (R80). -/
  | phaseSelector
  deriving DecidableEq, Repr

end Sys2Proof
end

