-- ==== Sys2Proof/WellFormed.lean ====
section
/-! DEFINITION. Which terms of `Instr` are instructions: an internal step's index lies in the range its
selector has (spec/30_encoding.md R80, R81). A COMPRESS payload of a malformed length is still a command: it
meets its fault when it runs (spec/60_exceptions.md R183), so nothing is checked of a payload here. -/

namespace Sys2Proof

/-- The index ranges of R101, R102 and R105 to R108. -/
def Instr.wf : Instr → Bool
  | .init => true
  | .update _ => true
  | .finalize => true
  | .compress _ => true
  | .loadw t => decide (t < 16)
  | .sched t => decide (16 ≤ t ∧ t < 80)
  | .initv => true
  | .roundCh t => decide (t < 20)
  | .roundPar1 t => decide (20 ≤ t ∧ t < 40)
  | .roundMaj t => decide (40 ≤ t ∧ t < 60)
  | .roundPar2 t => decide (60 ≤ t ∧ t < 80)
  | .feedfwd => true
  | .pad1 => true
  | .pad2 => true

/-- The four rows of the OP space; the others are "an internal step, not a host command". -/
def Instr.isCommand : Instr → Bool
  | .init => true
  | .update _ => true
  | .finalize => true
  | .compress _ => true
  | .loadw _ => false
  | .sched _ => false
  | .initv => false
  | .roundCh _ => false
  | .roundPar1 _ => false
  | .roundMaj _ => false
  | .roundPar2 _ => false
  | .feedfwd => false
  | .pad1 => false
  | .pad2 => false

end Sys2Proof
end

