-- ==== Sys2Proof/Decode.lean ====
section
/-! DEFINITION. Decoding and encoding (spec/30_encoding.md R70 to R74, R80, R81, R83). The decoder is total:
every code gets an instruction or a named rejection. -/

namespace Sys2Proof

/-- The command space: all 8 bits of `OP` are decoded (R71); reserved codes and a payload on a format-N
command are rejected (R72). -/
def decodeCommand (op : Byte) (payload : List Byte) : Except Reject Instr :=
  if op = 0x00#8 then
    if payload.isEmpty then .ok .init else .error .payloadOnFormatN
  else if op = 0x01#8 then .ok (.update payload)
  else if op = 0x02#8 then
    if payload.isEmpty then .ok .finalize else .error .payloadOnFormatN
  else if op = 0x03#8 then .ok (.compress payload)
  else .error .reservedCode

/-- The schedule space: LOADW when `s = 0` and `t < 16`, SCHED when `s = 1` and `16 <= t < 80` (R81). -/
def decodeSchedule (s : BitVec 1) (t : Nat) : Except Reject Instr :=
  if s = 0#1 ∧ t < 16 then .ok (.loadw t)
  else if s = 1#1 ∧ 16 ≤ t ∧ t < 80 then .ok (.sched t)
  else .error .scheduleSelector

/-- The round space: `p = t div 20` for `t` in `[0,80)`, phases 0 to 3 (R80). -/
def decodeRound (p : BitVec 2) (t : Nat) : Except Reject Instr :=
  if p = 0#2 ∧ t < 20 then .ok (.roundCh t)
  else if p = 1#2 ∧ 20 ≤ t ∧ t < 40 then .ok (.roundPar1 t)
  else if p = 2#2 ∧ 40 ≤ t ∧ t < 60 then .ok (.roundMaj t)
  else if p = 3#2 ∧ 60 ≤ t ∧ t < 80 then .ok (.roundPar2 t)
  else .error .phaseSelector

/-- The padding space: PAD1 when `q = 0`, PAD2 when `q = 1` (R83). -/
def decodePadding (q : BitVec 1) : Except Reject Instr :=
  if q = 0#1 then .ok .pad1 else .ok .pad2

/-- The decoder over every space of the table. -/
def decode : Code → Except Reject Instr
  | .command op payload => decodeCommand op payload
  | .schedule s t => decodeSchedule s t
  | .initv => .ok .initv
  | .round p t => decodeRound p t
  | .feedfwd => .ok .feedfwd
  | .padding q => decodePadding q

/-- A command as it is written: the code byte, then the payload bytes (R84). -/
def decodeBytes : List Byte → Except Reject Instr
  | [] => .error .noCode
  | op :: payload => decode (.command op payload)

/-- The code of an instruction, from the same tables (R71, R80, R81, R83). -/
def encode : Instr → Code
  | .init => .command 0x00#8 []
  | .update data => .command 0x01#8 data
  | .finalize => .command 0x02#8 []
  | .compress payload => .command 0x03#8 payload
  | .loadw t => .schedule 0#1 t
  | .sched t => .schedule 1#1 t
  | .initv => .initv
  | .roundCh t => .round 0#2 t
  | .roundPar1 t => .round 1#2 t
  | .roundMaj t => .round 2#2 t
  | .roundPar2 t => .round 3#2 t
  | .feedfwd => .feedfwd
  | .pad1 => .padding 0#1
  | .pad2 => .padding 1#1

/-- The bytes of a command (R84); an internal step has none (it is no host command). -/
def encodeBytes (i : Instr) : Option (List Byte) :=
  match encode i with
  | .command op payload => some (op :: payload)
  | _ => none

/-- The schedule selector of index `t`: `s = (t >= 16)` (R81). -/
def scheduleSelector (t : Nat) : BitVec 1 := if t < 16 then 0#1 else 1#1

/-- The phase selector of round `t`: `p = t div 20` (R80). -/
def phaseSelector (t : Nat) : BitVec 2 := BitVec.ofNat 2 (t / Config.phaseRounds)

/-- The padding selector of a fill count: `q = (BUFLEN >= 56)` (R83). -/
def paddingSelector (buflen : Nat) : BitVec 1 := if buflen ≤ 55 then 0#1 else 1#1

/-- The command a word of the opcode table stands for: its first byte is `OP`, its later bytes the payload.
Format S has a mandatory operand of 20 bytes (R70); the table gives it no bits, so it is filled with zeros
(log entry 6). Fewer than 8 bits hold no command code: the internal steps have selectors and no command
word. -/
def tableCommand (nbits w : Nat) : Option (Byte × List Byte) :=
  if nbits < 8 then none
  else
    let op : Byte := BitVec.ofNat 8 w
    let given : List Byte := (List.range (nbits / 8 - 1)).map fun k => BitVec.ofNat 8 (w >>> (8 * (k + 1)))
    let operand : List Byte :=
      if op = 0x03#8 then List.replicate (Config.digestBytes - given.length) 0#8 else []
    some (op, given ++ operand)

/-- What the decoder reads from a word numbered as spec/opcode_table.json numbers it. -/
def decodeTableWord (nbits w : Nat) : Option Instr :=
  match tableCommand nbits w with
  | none => none
  | some (op, payload) =>
    match decode (.command op payload) with
    | .ok i => some i
    | .error _ => none

end Sys2Proof
end

