-- ==== Sys2Proof/Machine/Constants.lean ====
section
/-! DEFINITION. The literals built into the engine (spec/30_encoding.md R82): the initial value and the four
round constants. The rotate amounts, schedule taps and padding numbers stand where they are used. -/

namespace Sys2Proof.Machine

/-- `IV[0..4]`, the value of the chaining state at hash start (R21). -/
def iv : Chain := ⟨0x67452301#32, 0xEFCDAB89#32, 0x98BADCFE#32, 0x10325476#32, 0xC3D2E1F0#32⟩

/-- `K[0]`, rounds 0 to 19 (R80, R105). -/
def k0 : Word := 0x5A827999#32

/-- `K[1]`, rounds 20 to 39 (R80, R106). -/
def k1 : Word := 0x6ED9EBA1#32

/-- `K[2]`, rounds 40 to 59 (R80, R107). -/
def k2 : Word := 0x8F1BBCDC#32

/-- `K[3]`, rounds 60 to 79 (R80, R108). -/
def k3 : Word := 0xCA62C1D6#32

/-- The padding marker: the whole byte 0x80 (R160). -/
def marker : Byte := 0x80#8

end Sys2Proof.Machine
end

