-- ==== Sys2Proof/Machine/State.lean ====
section
/-! DEFINITION. The machine's state (spec/10_state.md R20 to R37), the working storage of one block compression
(R23, R24), the host's side of the interface (spec/30_encoding.md R70, R75; spec/70_reset_and_hazards.md R217), the
reasons a step can stop, and the state after reset (R37). -/

namespace Sys2Proof.Machine

/-- `PHASE`, the context's state machine: exactly three values (R28). -/
inductive Phase where
  /-- After INIT or reset, before any UPDATE. -/
  | empty
  /-- After at least one UPDATE. -/
  | absorbing
  /-- After a successful FINALIZE; terminal for the context. -/
  | finalized
  deriving DecidableEq, Repr

/-- The statuses of a response: exactly five (R75, R185). -/
inductive Status where
  /-- The command was executed. -/
  | ok
  /-- UPDATE or FINALIZE in `Finalized` (R181). -/
  | errState
  /-- Reserved code, or payload on a format-N command (R182). -/
  | errIllegalCmd
  /-- COMPRESS payload length not `20 + 64*k` (R183). -/
  | faultBlocklen
  /-- Any command while `FAULTED = 1` (R184). -/
  | errFaulted
  deriving DecidableEq, Repr

/-- A response: a status, then a payload (R75). -/
structure Response where
  status : Status
  payload : List Byte
  deriving DecidableEq, Repr

/-- One thing the host does to the engine (R217). -/
inductive HostAction where
  /-- A command: the code byte and the payload (R70), issued after the previous response. -/
  | command (op : Byte) (payload : List Byte)
  /-- Reset. It may be asserted while a command executes; that command is then named here, and it is
  abandoned (R210). -/
  | reset (abandoned : Option (Byte × List Byte))
  /-- A command issued before the response of the previous one: the one thing the host must not do, and
  which has no meaning (R198). -/
  | overlap (op : Byte) (payload : List Byte) (op' : Byte) (payload' : List Byte)
  deriving DecidableEq, Repr

/-- The working storage of one block compression and of PAD: the operands and results of the ten internal
rows of the opcode table. R23, R24 and R30 say that it is no architectural state and holds nothing
outside a compression. -/
structure Scratch where
  /-- The block under compression (R50). -/
  blk : List Byte
  /-- The message schedule `W[0..79]` (R24). -/
  w : Vector Word 80
  /-- The working variables `a` to `e` (R23). -/
  vars : Chain
  /-- The state `S[0..4]` given to the compression, kept until FEEDFWD (R103). -/
  chain : Chain
  /-- The result `S'[0..4]` (R109). -/
  out : Chain
  /-- The padded tail `T` (R160). -/
  tail : List Byte
  deriving DecidableEq, Repr

/-- Five zero words. -/
def Chain.zero : Chain := ⟨0#32, 0#32, 0#32, 0#32, 0#32⟩

/-- The working storage outside a compression. R37 says it holds no value then; the zeros are the model's
(DESIGN CHOICE, unsafe, log entry 2). -/
def Scratch.idle : Scratch where
  blk := List.replicate 64 0#8
  w := Vector.replicate 80 0#32
  vars := Chain.zero
  chain := Chain.zero
  out := Chain.zero
  tail := []

/-- Everything the spec gives the machine, and the host's side of the interface as plain data. -/
structure State where
  /-- `H[0..4]`, the chaining state (R21). -/
  h : Chain
  /-- `BUF`, the pending bytes, oldest first; `BUFLEN` is its length (R25). -/
  buf : List Byte
  /-- `LEN`, the total bytes absorbed since INIT, mod 2^64 (R27). -/
  len : Counter
  /-- `PHASE` (R28). -/
  phase : Phase
  /-- `FAULTED` (R29). -/
  faulted : Bool
  /-- The working storage the internal steps act on; no command reads or writes it (log entry 1). -/
  scratch : Scratch
  /-- The host's actions still to come, in issue order (R62; log entry 3). -/
  host : List HostAction
  /-- The responses given so far, oldest first (R75; log entry 3). -/
  responses : List Response
  deriving DecidableEq, Repr

/-- The reasons a step stops with a fault. No command raises one: a malformed COMPRESS takes its exception
and goes on. -/
inductive Fault where
  /-- Raised by LOADW, SCHED and the four ROUND steps at an index outside the range their selector has
  (R80, R81). No code decodes to such a step. Safe (log entry 5). -/
  | indexOutOfRange
  /-- Raised by PAD1 when `BUFLEN >= 56` and by PAD2 when `BUFLEN <= 55`: the padding selector picks the
  other step (R83). Safe (log entry 5). -/
  | paddingNotSelected
  deriving DecidableEq, Repr

/-- The reasons a step is refused. -/
inductive Refusal where
  /-- Raised by an arm of `exec` that has no meaning yet (none is left). Safe. -/
  | notModelled (mnemonic : String)
  /-- Raised by `step` when the host overlaps commands: "undefined otherwise", and the model gives the
  situation no step (R198). Safe (log entry 4). -/
  | overlappingCommands
  deriving DecidableEq, Repr

/-- The machine right after reset (R37). `scratch`, `host` and `responses` are not in R37's table as state:
their values are the model's (log entries 2 and 3). -/
def State.reset : State where
  h := iv
  buf := []
  len := 0#64
  phase := .empty
  faulted := false
  scratch := Scratch.idle
  host := []
  responses := []

end Sys2Proof.Machine
end

