-- ==== Sys2Proof/Machine/Flags.lean ====
section
/-! DEFINITION. The status bits. The engine has no condition codes and records no carry (spec/10_state.md R32): its
only status bits are `PHASE` (R28) and `FAULTED` (R29). Beside them, the numbers by which a phase and a status
are seen (R28; spec/30_encoding.md R75). -/

namespace Sys2Proof.Machine

/-- `PHASE` as a field of 2 bits; 3 is never written (R28). -/
def Phase.field : Phase → BitVec 2
  | .empty => 0#2
  | .absorbing => 1#2
  | .finalized => 2#2

/-- The number of a status; 0x05 to 0xFF are never produced (R75). -/
def Status.code : Status → Byte
  | .ok => 0x00#8
  | .errState => 0x01#8
  | .errIllegalCmd => 0x02#8
  | .faultBlocklen => 0x03#8
  | .errFaulted => 0x04#8

/-- A response as it leaves the engine: the status byte, then the payload (R75). -/
def Response.bytes (r : Response) : List Byte := r.status.code :: r.payload

/-- `FAULTED` after a status is raised: set by `FAULT_BLOCKLEN`, kept by every other (R14, R29, R183). -/
def faultedAfter (st : Status) (faulted : Bool) : Bool :=
  match st with
  | .ok => faulted
  | .errState => faulted
  | .errIllegalCmd => faulted
  | .faultBlocklen => true
  | .errFaulted => faulted

end Sys2Proof.Machine
end

