-- ==== Sys2Proof/Machine/Bits.lean ====
section
/-! DEFINITION. The word and byte primitives (spec/00_scope.md R11, R12; spec/20_memory.md R51 to R54): rotates,
the round functions' bitwise parts, and the three big-endian conversions. -/

namespace Sys2Proof.Machine

/-- `ROTL(n,x)` for `0 < n < 32`: no bit is lost (R11). -/
def rotl (n : Nat) (x : Word) : Word := (x <<< n) ||| (x >>> (32 - n))

/-- The byte of a sequence at an index. Every rule reads inside the sequence; the 0 outside it is reached
only by a working block that is not 64 bytes long, which no command forms (log entry 15). -/
def byteAt (s : List Byte) (i : Nat) : Byte := s.getD i 0#8

/-- `MemRead(addr, 4)`: the four bytes from `addr`, read big-endian (R12). -/
def be32At (s : List Byte) (addr : Nat) : Word :=
  BitVec.ofNat 32
    ((byteAt s addr).toNat * 2 ^ 24 + (byteAt s (addr + 1)).toNat * 2 ^ 16 +
      (byteAt s (addr + 2)).toNat * 2 ^ 8 + (byteAt s (addr + 3)).toNat)

/-- `bytes32(v)`: the four bytes of a word, most significant first (R12). -/
def bytes32 (v : Word) : List Byte :=
  [v.extractLsb' 24 8, v.extractLsb' 16 8, v.extractLsb' 8 8, v.extractLsb' 0 8]

/-- `bytes64(v)`: the eight bytes of a 64-bit number, most significant first (R12, R53). -/
def bytes64 (v : Counter) : List Byte :=
  [v.extractLsb' 56 8, v.extractLsb' 48 8, v.extractLsb' 40 8, v.extractLsb' 32 8,
    v.extractLsb' 24 8, v.extractLsb' 16 8, v.extractLsb' 8 8, v.extractLsb' 0 8]

/-- `zeros(n)` (R12). -/
def zeros (n : Nat) : List Byte := List.replicate n 0#8

/-- `f_0(b,c,d) = (b AND c) OR (NOT b AND d)` (R105). -/
def fCh (b c d : Word) : Word := (b &&& c) ||| (~~~b &&& d)

/-- `f_1 = f_3`, `b XOR c XOR d` (R106, R108). -/
def fParity (b c d : Word) : Word := b ^^^ c ^^^ d

/-- `f_2(b,c,d) = (b AND c) OR (b AND d) OR (c AND d)` (R107). -/
def fMaj (b c d : Word) : Word := (b &&& c) ||| (b &&& d) ||| (c &&& d)

end Sys2Proof.Machine
end

