-- ==== Sys2Proof/Machine/Operands.lean ====
section
/-! DEFINITION. Operand forms: the state operand and the blocks of COMPRESS (spec/30_encoding.md R70, R77), the
bytes an UPDATE works on (spec/41_streaming.md R142), the padded tail of FINALIZE (R78, R79; spec/42_finalize.md R160),
and the working storage's own reads and writes. -/

namespace Sys2Proof.Machine

/-- Five words as 20 bytes, big-endian, A first (R54, R77). -/
def chainBytes (c : Chain) : List Byte :=
  bytes32 c.a ++ bytes32 c.b ++ bytes32 c.c ++ bytes32 c.d ++ bytes32 c.e

/-- The state operand at the head of a COMPRESS payload (R77, R112). -/
def stateOperand (payload : List Byte) : Chain :=
  ⟨be32At payload 0, be32At payload 4, be32At payload 8, be32At payload 12, be32At payload 16⟩

/-- The block bytes of a COMPRESS payload (R70, R112). -/
def blocksOperand (payload : List Byte) : List Byte := payload.drop Config.digestBytes

/-- A COMPRESS payload has 20 bytes of state and whole blocks (R58, R112, R183). -/
def payloadWellSized (payload : List Byte) : Bool :=
  decide (Config.digestBytes ≤ payload.length) &&
    decide ((payload.length - Config.digestBytes) % Config.blockBytes = 0)

/-- `X <- BUF ++ data` (R142). -/
def pendingWith (buf data : List Byte) : List Byte := buf ++ data

/-- The whole blocks at the front of a byte sequence, `X[0 : 64*k]` with `k = len(X) div 64` (R142). -/
def fullBlocks (x : List Byte) : List Byte := x.take (Config.blockBytes * (x.length / Config.blockBytes))

/-- What is left after the whole blocks, `X[64*k : len(X)]` (R142). -/
def remainder (x : List Byte) : List Byte := x.drop (Config.blockBytes * (x.length / Config.blockBytes))

/-- `bitcount = (LEN * 8) mod 2^64` (R79). -/
def bitcount (len : Counter) : Counter := len * 8#64

/-- `BUF ++ 0x80 ++ zeros(z) ++ bytes64(bitcount)` for a given zero fill (R78). -/
def padWith (z : Nat) (buf : List Byte) (len : Counter) : List Byte :=
  buf ++ [marker] ++ zeros z ++ bytes64 (bitcount len)

/-- `z = (55 - r) mod 64` (R160), written without a negative number. -/
def zeroFill (r : Nat) : Nat := (119 - r % 64) % 64

/-- `PAD(BUF, LEN)` (R160). -/
def pad (buf : List Byte) (len : Counter) : List Byte := padWith (zeroFill buf.length) buf len

/-- `W[i]` (R24). -/
def Scratch.word (sc : Scratch) (i : Nat) : Word := if h : i < 80 then sc.w[i] else 0#32

/-- `W[i] <- v` (R24). -/
def Scratch.setWord (sc : Scratch) (i : Nat) (v : Word) : Scratch :=
  { sc with w := sc.w.setIfInBounds i v }

end Sys2Proof.Machine
end

