-- ==== Sys2Proof/Machine/Ops.lean ====
section
/-! DEFINITION. The shared operations: the steps of a block compression over its working storage
(spec/40_compress.md R101 to R111), giving a response, raising (R14; spec/60_exceptions.md R186, R188), reset
(spec/70_reset_and_hazards.md R210), and the next host action. -/

namespace Sys2Proof.Machine

/-! ### The steps of a block compression -/

/-- LOADW: `W[t] <- MemRead(4*t, 4)` (R101). -/
def Scratch.loadw (sc : Scratch) (t : Nat) : Scratch := sc.setWord t (be32At sc.blk (4 * t))

/-- SCHED: `W[t] <- ROTL(1, W[t-16] ^ W[t-14] ^ W[t-8] ^ W[t-3])` (R102). -/
def Scratch.sched (sc : Scratch) (t : Nat) : Scratch :=
  sc.setWord t (rotl 1 ((sc.word (t - 16) ^^^ sc.word (t - 14)) ^^^ (sc.word (t - 8) ^^^ sc.word (t - 3))))

/-- INITV: the working variables take the state (R103). -/
def Scratch.initv (sc : Scratch) : Scratch := { sc with vars := sc.chain }

/-- The simultaneous update common to all rounds, for a function value `f`, a constant `k` and a schedule
word `w` (R104). -/
def mix (f k w : Word) (v : Chain) : Chain :=
  ⟨rotl 5 v.a + f + v.e + k + w, v.a, rotl 30 v.b, v.c, v.d⟩

/-- ROUND_CH (R104, R105). -/
def Scratch.roundCh (sc : Scratch) (t : Nat) : Scratch :=
  { sc with vars := mix (fCh sc.vars.b sc.vars.c sc.vars.d) k0 (sc.word t) sc.vars }

/-- ROUND_PAR1 (R104, R106). -/
def Scratch.roundPar1 (sc : Scratch) (t : Nat) : Scratch :=
  { sc with vars := mix (fParity sc.vars.b sc.vars.c sc.vars.d) k1 (sc.word t) sc.vars }

/-- ROUND_MAJ (R104, R107). -/
def Scratch.roundMaj (sc : Scratch) (t : Nat) : Scratch :=
  { sc with vars := mix (fMaj sc.vars.b sc.vars.c sc.vars.d) k2 (sc.word t) sc.vars }

/-- ROUND_PAR2 (R104, R108). -/
def Scratch.roundPar2 (sc : Scratch) (t : Nat) : Scratch :=
  { sc with vars := mix (fParity sc.vars.b sc.vars.c sc.vars.d) k3 (sc.word t) sc.vars }

/-- FEEDFWD: the result is the old state plus the working variables, word by word (R109). -/
def Scratch.feedfwd (sc : Scratch) : Scratch :=
  { sc with out := ⟨sc.chain.a + sc.vars.a, sc.chain.b + sc.vars.b, sc.chain.c + sc.vars.c,
      sc.chain.d + sc.vars.d, sc.chain.e + sc.vars.e⟩ }

/-- PAD1: `z = 55 - r` (R160, R161). -/
def Scratch.pad1 (sc : Scratch) (buf : List Byte) (len : Counter) : Scratch :=
  { sc with tail := padWith (55 - buf.length) buf len }

/-- PAD2: `z = 119 - r` (R160, R161). -/
def Scratch.pad2 (sc : Scratch) (buf : List Byte) (len : Counter) : Scratch :=
  { sc with tail := padWith (119 - buf.length) buf len }

/-- The step that produces schedule word `t`, by the schedule selector (R81). -/
def Scratch.scheduleStep (sc : Scratch) (t : Nat) : Scratch :=
  if scheduleSelector t = 0#1 then sc.loadw t else sc.sched t

/-- The step of round `t`, by the phase selector (R80). -/
def Scratch.roundStep (sc : Scratch) (t : Nat) : Scratch :=
  if phaseSelector t = 0#2 then sc.roundCh t
  else if phaseSelector t = 1#2 then sc.roundPar1 t
  else if phaseSelector t = 2#2 then sc.roundMaj t
  else sc.roundPar2 t

/-- The working storage at the start of a block compression: its two inputs in place (R100). -/
def Scratch.start (s : Chain) (blk : List Byte) : Scratch := { Scratch.idle with blk := blk, chain := s }

/-- LOADW for `t` in `[0,16)`, SCHED for `t` in `[16,80)`, INITV, one ROUND for each `t` in `[0,80)`,
FEEDFWD, in this order (R100, R110). -/
def Scratch.compress (sc : Scratch) : Scratch :=
  ((List.range Config.rounds).foldl Scratch.roundStep
    ((List.range Config.schedWords).foldl Scratch.scheduleStep sc).initv).feedfwd

/-- `CompressBlock(S, blk)`, in working storage of its own that does not survive (R23, R100, R110). -/
def compressBlock (s : Chain) (blk : List Byte) : Chain := (Scratch.start s blk).compress.out

/-- `k` blocks in order, each with the state the previous one produced (R111). -/
def compressN : Nat → Chain → List Byte → Chain
  | 0, s, _ => s
  | k + 1, s, bytes =>
    compressN k (compressBlock s (bytes.take Config.blockBytes)) (bytes.drop Config.blockBytes)

/-- `CompressBlocks(S, blocks)` (R111). -/
def compressBlocks (s : Chain) (blocks : List Byte) : Chain :=
  compressN (blocks.length / Config.blockBytes) s blocks

/-! ### Responses, raising, reset -/

/-- Every command gives exactly one response (R75). -/
def State.respond (s : State) (st : Status) (payload : List Byte) : State :=
  { s with responses := s.responses ++ [⟨st, payload⟩] }

/-- `raise st`: the response has an empty payload, nothing is saved and control goes nowhere; of the
engine's state only `FAULTED` can change, and only for `FAULT_BLOCKLEN` (R14, R186, R188). -/
def State.raise (s : State) (st : Status) : State :=
  { s with faulted := faultedAfter st s.faulted }.respond st []

/-- The check every command makes first (R184, R187). -/
def State.unlessFaulted (s : State) (run : Host.Outcome State Fault Refusal) :
    Host.Outcome State Fault Refusal :=
  if s.faulted then .next (s.raise .errFaulted) else run

/-- A code the decoder rejects: `ERR_ILLEGAL_CMD`, unless the engine is faulted (R72, R182, R187). -/
def State.rejectCommand (s : State) : Host.Outcome State Fault Refusal :=
  s.unlessFaulted (.next (s.raise .errIllegalCmd))

/-- A fresh context: IV state, empty buffer, zero counter (R141). -/
def State.freshContext (s : State) : State :=
  { s with h := iv, buf := [], len := 0#64, phase := .empty }

/-- Reset, the only recovery from a fault: the state of R37, no response, and nothing of a command in
progress (R189, R210). The host keeps its own plans and the responses it has. -/
def State.hostReset (s : State) : State :=
  { State.reset with host := s.host, responses := s.responses }

/-- Absorbing bytes: the completed blocks are compressed in input order, the remainder is kept, the
counter advances by the bytes taken (R142). -/
def State.absorb (s : State) (data : List Byte) : State :=
  { s with
    h := compressBlocks s.h (fullBlocks (pendingWith s.buf data))
    buf := remainder (pendingWith s.buf data)
    len := s.len + BitVec.ofNat 64 data.length
    phase := .absorbing }

/-- Closing a message: the padded tail is compressed, the buffer emptied, the phase `Finalized`; `LEN` is
left as it was (R162). -/
def State.close (s : State) : State :=
  { s with h := compressBlocks s.h (pad s.buf s.len), buf := [], phase := .finalized }

/-- An internal step writes the working storage and nothing else (R23, R24). -/
def State.withScratch (s : State) (sc : Scratch) : State := { s with scratch := sc }

/-- The host's actions after the one now taken (R62). -/
def State.withHost (s : State) (rest : List HostAction) : State := { s with host := rest }

/-- The commands of `HASH M` (R85). -/
def hashCommands (m : List Byte) : List HostAction :=
  [.command 0x00#8 [], .command 0x01#8 m, .command 0x02#8 []]

end Sys2Proof.Machine
end

