-- ==== Sys2Proof/Machine/Compress.lean ====
section
/-! DEFINITION. The compression family: COMPRESS and the steps of a block compression (spec/40_compress.md R101 to
R112). -/

namespace Sys2Proof.Machine

/-- COMPRESS (R112): the state operated on is the operand; `H`, `BUF`, `LEN`, `PHASE` are neither read nor
written. A malformed length raises `FAULT_BLOCKLEN` and compresses nothing (R183). -/
def execCompress (payload : List Byte) (s : State) : Host.Outcome State Fault Refusal :=
  s.unlessFaulted
    (if payloadWellSized payload then
       .next (s.respond .ok (chainBytes (compressBlocks (stateOperand payload) (blocksOperand payload))))
     else .next (s.raise .faultBlocklen))

/-- LOADW (R101). -/
def execLoadw (t : Nat) (s : State) : Host.Outcome State Fault Refusal :=
  if t < 16 then .next (s.withScratch (s.scratch.loadw t)) else .fault .indexOutOfRange

/-- SCHED (R102). -/
def execSched (t : Nat) (s : State) : Host.Outcome State Fault Refusal :=
  if 16 ≤ t ∧ t < 80 then .next (s.withScratch (s.scratch.sched t)) else .fault .indexOutOfRange

/-- INITV (R103). -/
def execInitv (s : State) : Host.Outcome State Fault Refusal :=
  .next (s.withScratch s.scratch.initv)

/-- ROUND_CH (R105). -/
def execRoundCh (t : Nat) (s : State) : Host.Outcome State Fault Refusal :=
  if t < 20 then .next (s.withScratch (s.scratch.roundCh t)) else .fault .indexOutOfRange

/-- ROUND_PAR1 (R106). -/
def execRoundPar1 (t : Nat) (s : State) : Host.Outcome State Fault Refusal :=
  if 20 ≤ t ∧ t < 40 then .next (s.withScratch (s.scratch.roundPar1 t)) else .fault .indexOutOfRange

/-- ROUND_MAJ (R107). -/
def execRoundMaj (t : Nat) (s : State) : Host.Outcome State Fault Refusal :=
  if 40 ≤ t ∧ t < 60 then .next (s.withScratch (s.scratch.roundMaj t)) else .fault .indexOutOfRange

/-- ROUND_PAR2 (R108). -/
def execRoundPar2 (t : Nat) (s : State) : Host.Outcome State Fault Refusal :=
  if 60 ≤ t ∧ t < 80 then .next (s.withScratch (s.scratch.roundPar2 t)) else .fault .indexOutOfRange

/-- FEEDFWD (R109). -/
def execFeedfwd (s : State) : Host.Outcome State Fault Refusal :=
  .next (s.withScratch s.scratch.feedfwd)

end Sys2Proof.Machine
end

