-- ==== Sys2Proof/Machine/Finalize.lean ====
section
/-! DEFINITION. The finalizer family: FINALIZE and the padding steps PAD1 and PAD2 (spec/42_finalize.md R160 to
R167). -/

namespace Sys2Proof.Machine

/-- FINALIZE (R162): the digest is the chaining state after the trailing blocks, legal in `Empty` and in
`Absorbing`, refused in `Finalized` (R164). -/
def execFinalize (s : State) : Host.Outcome State Fault Refusal :=
  s.unlessFaulted
    (if s.phase = .finalized then .next (s.raise .errState)
     else .next (s.close.respond .ok (chainBytes s.close.h)))

/-- PAD1, selected when `BUFLEN <= 55` (R83, R161). -/
def execPad1 (s : State) : Host.Outcome State Fault Refusal :=
  if s.buf.length ≤ 55 then .next (s.withScratch (s.scratch.pad1 s.buf s.len))
  else .fault .paddingNotSelected

/-- PAD2, selected when `BUFLEN >= 56` (R83, R161). -/
def execPad2 (s : State) : Host.Outcome State Fault Refusal :=
  if 56 ≤ s.buf.length then .next (s.withScratch (s.scratch.pad2 s.buf s.len))
  else .fault .paddingNotSelected

end Sys2Proof.Machine
end

