-- ==== Sys2Proof/Machine/Streaming.lean ====
section
/-! DEFINITION. The streaming family: INIT and UPDATE (spec/41_streaming.md R140 to R148). -/

namespace Sys2Proof.Machine

/-- INIT, accepted in every `PHASE` (R141). `FAULTED` is not cleared. -/
def execInit (s : State) : Host.Outcome State Fault Refusal :=
  s.unlessFaulted (.next (s.freshContext.respond .ok []))

/-- UPDATE (R142): any number of bytes, zero included (R144). -/
def execUpdate (data : List Byte) (s : State) : Host.Outcome State Fault Refusal :=
  s.unlessFaulted
    (if s.phase = .finalized then .next (s.raise .errState)
     else .next ((s.absorb data).respond .ok []))

end Sys2Proof.Machine
end

