-- ==== Sys2Proof/Machine/Dispatch.lean ====
section
/-! DEFINITION. One arm per constructor of `Instr`, each one direct call of its meaning. -/

namespace Sys2Proof.Machine

def exec (i : Instr) (s : State) : Host.Outcome State Fault Refusal :=
  match i with
  | .init => Sys2Proof.Machine.execInit s
  | .update data => Sys2Proof.Machine.execUpdate data s
  | .finalize => Sys2Proof.Machine.execFinalize s
  | .compress payload => Sys2Proof.Machine.execCompress payload s
  | .loadw t => Sys2Proof.Machine.execLoadw t s
  | .sched t => Sys2Proof.Machine.execSched t s
  | .initv => Sys2Proof.Machine.execInitv s
  | .roundCh t => Sys2Proof.Machine.execRoundCh t s
  | .roundPar1 t => Sys2Proof.Machine.execRoundPar1 t s
  | .roundMaj t => Sys2Proof.Machine.execRoundMaj t s
  | .roundPar2 t => Sys2Proof.Machine.execRoundPar2 t s
  | .feedfwd => Sys2Proof.Machine.execFeedfwd s
  | .pad1 => Sys2Proof.Machine.execPad1 s
  | .pad2 => Sys2Proof.Machine.execPad2 s

end Sys2Proof.Machine
end

