-- ==== Sys2Proof/Machine/Step.lean ====
section
/-! DEFINITION. One step: the engine takes the host's next action and completes it (spec/00_scope.md R6, R7;
spec/20_memory.md R62). The engine fetches no instructions and has no program counter (R31, R66). -/

namespace Sys2Proof.Machine

/-- A command is one atomic step with one response (R6). With nothing asked of it the engine holds its state
and does nothing (R197). A command that overlaps another has no step (R198). -/
def step (s : State) : Host.Outcome State Fault Refusal :=
  match s.host with
  | [] => .next s
  | .command op payload :: rest =>
    match decode (.command op payload) with
    | .ok i => exec i (s.withHost rest)
    | .error _ => (s.withHost rest).rejectCommand
  | .reset _ :: rest => .next (s.withHost rest).hostReset
  | .overlap _ _ _ _ :: _ => .refused .overlappingCommands

/-- The state in which the host's next action is the command of a table word, so that the very next step
runs it (log entries 3 and 6). A word with no command code changes nothing. -/
def State.withFetchWord (s : State) (nbits w : Nat) : State :=
  match tableCommand nbits w with
  | none => s
  | some (op, payload) => s.withHost (.command op payload :: s.host)

end Sys2Proof.Machine
end

