-- ==== Sys2Proof/Safety.lean ====
section
/-! DEFINITION. The terms claims use: when the engine accepts commands, the invariant of spec/10_state.md R35, what it
means that a state holds a message in progress, sequences of internal steps, and the two other realisations the
spec allows, a window of 16 schedule words (spec/40_compress.md R114) and a byte-serial UPDATE
(spec/41_streaming.md R143). -/

namespace Sys2Proof.Machine

/-- UPDATE and FINALIZE are accepted: no fault since reset, and the context is not `Finalized` (R140). -/
abbrev State.Accepting (s : State) : Prop := s.faulted = false ∧ s.phase ≠ .finalized

/-- R35 (a), (b), (c) and (e). -/
structure State.ContextInv (s : State) : Prop where
  /-- (a) `0 <= BUFLEN <= 63`. -/
  short : s.buf.length ≤ 63
  /-- (b) In `Empty` the context is fresh. -/
  fresh : s.phase = .empty →
    s.h = ⟨0x67452301#32, 0xEFCDAB89#32, 0x98BADCFE#32, 0x10325476#32, 0xC3D2E1F0#32⟩ ∧
      s.buf = [] ∧ s.len = 0#64
  /-- (c) In `Empty` and `Absorbing`, `BUFLEN = LEN mod 64`. -/
  fill : s.phase ≠ .finalized → s.buf.length = s.len.toNat % 64
  /-- (e) In `Finalized` nothing is pending. -/
  emptied : s.phase = .finalized → s.buf = []

/-- R35 (d): the context holds the message `m` absorbed since INIT or reset. `m.take (64 * q)` are its `q`
whole blocks, in order, and `m.drop (64 * q)` its pending bytes. -/
structure State.Holds (s : State) (m : List Byte) : Prop where
  counter : s.len = BitVec.ofNat 64 m.length
  pending : s.buf = m.drop (64 * (m.length / 64))
  folded : s.h = compressBlocks iv (m.take (64 * (m.length / 64)))
  notFinal : s.phase ≠ .finalized

/-- The five pieces of engine state (R20) are the same in two states. -/
structure SameEngine (s t : State) : Prop where
  h : s.h = t.h
  buf : s.buf = t.buf
  len : s.len = t.len
  phase : s.phase = t.phase
  faulted : s.faulted = t.faulted

/-- Instructions in sequence, stopping at the first that gives no next state. -/
def execAll : List Instr → State → Host.Outcome State Fault Refusal
  | [], s => .next s
  | i :: rest, s =>
    match exec i s with
    | .next t => execAll rest t
    | .fault f => .fault f
    | .refused r => .refused r

/-- The internal steps of one block compression, in the order of R100. -/
def blockSteps : List Instr :=
  (List.range 16).map .loadw ++ (List.range 64).map (fun k => .sched (16 + k)) ++ [.initv] ++
    (List.range 20).map .roundCh ++ (List.range 20).map (fun k => .roundPar1 (20 + k)) ++
    (List.range 20).map (fun k => .roundMaj (40 + k)) ++
    (List.range 20).map (fun k => .roundPar2 (60 + k)) ++ [.feedfwd]

/-- The round function's value at round `t` (R80). -/
def roundF (t : Nat) (v : Chain) : Word :=
  if t < 20 then (v.b &&& v.c) ||| (~~~v.b &&& v.d)
  else if t < 40 then v.b ^^^ v.c ^^^ v.d
  else if t < 60 then (v.b &&& v.c) ||| (v.b &&& v.d) ||| (v.c &&& v.d)
  else v.b ^^^ v.c ^^^ v.d

/-- The round constant at round `t` (R80). -/
def roundK (t : Nat) : Word :=
  if t < 20 then 0x5A827999#32 else if t < 40 then 0x6ED9EBA1#32
  else if t < 60 then 0x8F1BBCDC#32 else 0xCA62C1D6#32

/-- `n` rounds from round `t` with a window of at most 16 schedule words, oldest first: each word is made
just before its round and the oldest is dropped (R114). -/
def windowRounds (blk : List Byte) : Nat → Nat → List Word → Chain → Chain
  | 0, _, _, v => v
  | n + 1, t, win, v =>
    let w : Word :=
      if t < 16 then be32At blk (4 * t)
      else rotl 1 (win.getD 0 0 ^^^ win.getD 2 0 ^^^ win.getD 8 0 ^^^ win.getD 13 0)
    windowRounds blk n (t + 1) ((if t < 16 then win else win.drop 1) ++ [w])
      ⟨rotl 5 v.a + roundF t v + v.e + roundK t + w, v.a, rotl 30 v.b, v.c, v.d⟩

/-- A block compression that keeps 16 schedule words (R114). -/
def windowCompress (s : Chain) (blk : List Byte) : Chain :=
  let v := windowRounds blk 80 0 [] s
  ⟨s.a + v.a, s.b + v.b, s.c + v.c, s.d + v.d, s.e + v.e⟩

/-- One byte of a byte-serial UPDATE: it is buffered and counted, and a buffer of 64 bytes is compressed and
emptied (R143). -/
def absorbByte (s : State) (x : Byte) : State :=
  if (s.buf ++ [x]).length = 64 then
    { s with h := compressBlock s.h (s.buf ++ [x]), buf := [], len := s.len + 1#64 }
  else { s with buf := s.buf ++ [x], len := s.len + 1#64 }

/-- The padded message of R166: `M`, the marker, the zero fill, and the bit count in 8 bytes. -/
def paddedMessage (m : List Byte) : List Byte :=
  m ++ [0x80#8] ++ List.replicate ((119 - m.length % 64) % 64) 0#8 ++
    bytes64 (BitVec.ofNat 64 (8 * m.length))

end Sys2Proof.Machine
end

