-- ==== Sys2Proof/Certificates/Slice0/Obligations.lean ====
section
/-! DEFINITION. The statements for the provers, from the numbered rules of spec/. -/

open Sys2Proof Sys2Proof.Machine

/-! ### Reset and the host's actions -/

/-- The reset values of 10_state.md section 10. That reset equals a fresh context is the spec's own decision
(D14). -/
def Obligations.ResetLeavesFreshContext : Prop :=
  State.reset.h = ⟨0x67452301#32, 0xEFCDAB89#32, 0x98BADCFE#32, 0x10325476#32, 0xC3D2E1F0#32⟩ ∧
    State.reset.buf = [] ∧ State.reset.len = 0#64 ∧ State.reset.phase = .empty ∧
    State.reset.faulted = false

/-- 70_reset_and_hazards.md section 1 (the spec's decision D14): reset gives the reset state, whatever command was
in progress, and no response. The host's list and the responses are the model's fields (log 3). -/
def Obligations.HostResetRestoresEverything : Prop :=
  ∀ (s : State) (c : Option (Byte × List Byte)) (rest : List HostAction),
    s.host = .reset c :: rest →
      step s = .next { State.reset with host := rest, responses := s.responses }

/-- "No command clears it; only reset does" (10_state.md section 5, the spec's decision D9). -/
def Obligations.OnlyResetClearsFaulted : Prop :=
  ∀ s t : State, step s = .next t → s.faulted = true → t.faulted = false →
    ∃ c rest, s.host = .reset c :: rest

/-- `FAULTED` is set by a COMPRESS of malformed length "and by nothing else" (10_state.md section 5, D9). -/
def Obligations.OnlyMalformedCompressSetsFaulted : Prop :=
  ∀ s t : State, step s = .next t → s.faulted = false → t.faulted = true →
    ∃ payload rest, s.host = .command 0x03#8 payload :: rest ∧
      ¬ (20 ≤ payload.length ∧ (payload.length - 20) % 64 = 0)

/-- "Between commands it holds its state and does nothing" (60_exceptions.md section 5). That a step may find no
action pending is the model's (log 13). -/
def Obligations.IdleEngineHoldsItsState : Prop :=
  ∀ s : State, s.host = [] → step s = .next s

/-- An overlapping command has no step (60_exceptions.md section 6, the spec's decision D17; the refusal's name is the
model's, log 4). -/
def Obligations.OverlappingCommandsHaveNoStep : Prop :=
  ∀ (s : State) (op op' : Byte) (p p' : List Byte) (rest : List HostAction),
    s.host = .overlap op p op' p' :: rest →
      step s = .refused .overlappingCommands ∧ ∀ t : State, step s ≠ .next t

/-! ### Decoding -/

/-- Words written out from 30_encoding.md sections 1 and 4 (the command numbers are the spec's decision D2). -/
def Obligations.TabledWordsDecode : Prop :=
  decodeBytes [0x00#8] = .ok .init ∧
    decodeBytes [0x01#8, 0x61#8, 0x62#8, 0x63#8] = .ok (.update [0x61#8, 0x62#8, 0x63#8]) ∧
    decodeBytes [0x02#8] = .ok .finalize ∧
    decodeBytes [0x03#8, 0x67#8] = .ok (.compress [0x67#8]) ∧
    decodeBytes [0x04#8] = .error .reservedCode ∧ decodeBytes [0xFF#8, 0x00#8] = .error .reservedCode ∧
    decodeBytes [0x02#8, 0x00#8] = .error .payloadOnFormatN ∧
    decodeBytes [0x00#8, 0x01#8] = .error .payloadOnFormatN ∧
    decode (.schedule 0#1 15) = .ok (.loadw 15) ∧ decode (.schedule 1#1 16) = .ok (.sched 16) ∧
    decode (.round 0#2 19) = .ok (.roundCh 19) ∧ decode (.round 1#2 20) = .ok (.roundPar1 20) ∧
    decode (.round 2#2 40) = .ok (.roundMaj 40) ∧ decode (.round 3#2 79) = .ok (.roundPar2 79) ∧
    decode .initv = .ok .initv ∧ decode .feedfwd = .ok .feedfwd ∧
    decode (.padding 0#1) = .ok .pad1 ∧ decode (.padding 1#1) = .ok .pad2

/-- Decode and encode agree, over every code and every instruction: the decoder reads `i` from `c` exactly
when `i` is well formed and `c` is its encoding (30_encoding.md sections 1 and 4). -/
def Obligations.DecoderAcceptsExactlyTheEncodings : Prop :=
  ∀ (c : Code) (i : Instr), decode c = .ok i ↔ (i.wf = true ∧ encode i = c)

/-- Which commands the decoder rejects, and that it reads only host commands from the command space
(30_encoding.md section 1; the spec's decision D3). -/
def Obligations.DecoderRejectsReservedAndPayloadOnN : Prop :=
  ∀ (op : Byte) (payload : List Byte),
    ((∃ r, decode (.command op payload) = .error r) ↔
      (4 ≤ op.toNat ∨ ((op = 0x00#8 ∨ op = 0x02#8) ∧ payload ≠ []))) ∧
    ∀ i, decode (.command op payload) = .ok i → i.isCommand = true

/-- A step runs the decoded command on the state whose pending actions are the ones after it. -/
def Obligations.StepRunsDecodedCommand : Prop :=
  ∀ (s : State) (op : Byte) (payload : List Byte) (rest : List HostAction) (i : Instr),
    s.host = .command op payload :: rest → decode (.command op payload) = .ok i →
      step s = exec i { s with host := rest }

/-- A rejected code is answered `ERR_ILLEGAL_CMD` and changes no state (60_exceptions.md section 2; the spec's
decision D3). -/
def Obligations.UndecodableCommandIsIllegal : Prop :=
  ∀ (s : State) (op : Byte) (payload : List Byte) (rest : List HostAction) (r : Reject),
    s.host = .command op payload :: rest → decode (.command op payload) = .error r →
    s.faulted = false →
      step s = .next { s with host := rest, responses := s.responses ++ [⟨.errIllegalCmd, []⟩] }

/-- While `FAULTED` is 1 every command, a reserved code among them, is refused and changes nothing
(60_exceptions.md section 2; the spec's decision D9). -/
def Obligations.FaultedEngineRefusesEveryCommand : Prop :=
  ∀ (s : State) (op : Byte) (payload : List Byte) (rest : List HostAction),
    s.host = .command op payload :: rest → s.faulted = true →
      step s = .next { s with host := rest, responses := s.responses ++ [⟨.errFaulted, []⟩] }

/-- The priority of conditions (60_exceptions.md section 3; the spec's decision D18), for every command in every
state. -/
def Obligations.StatusFollowsThePriority : Prop :=
  ∀ (s : State) (op : Byte) (payload : List Byte) (rest : List HostAction),
    s.host = .command op payload :: rest →
      ∃ (t : State) (r : Response), step s = .next t ∧ t.responses = s.responses ++ [r] ∧
        r.status =
          (if s.faulted = true then .errFaulted
           else if 4 ≤ op.toNat ∨ ((op = 0x00#8 ∨ op = 0x02#8) ∧ payload ≠ []) then .errIllegalCmd
           else if s.phase = .finalized ∧ (op = 0x01#8 ∨ op = 0x02#8) then .errState
           else if op = 0x03#8 ∧ ¬ (20 ≤ payload.length ∧ (payload.length - 20) % 64 = 0) then
             .faultBlocklen
           else .ok)

/-- Every command gives exactly one response, and its payload is 20 bytes for an executed FINALIZE or
COMPRESS and empty otherwise (30_encoding.md section 2). -/
def Obligations.EveryCommandGivesOneResponse : Prop :=
  ∀ (s : State) (op : Byte) (payload : List Byte) (rest : List HostAction),
    s.host = .command op payload :: rest →
      ∃ (t : State) (r : Response), step s = .next t ∧ t.host = rest ∧
        t.responses = s.responses ++ [r] ∧
        r.payload.length =
          (if r.status = .ok ∧ (op = 0x02#8 ∨ op = 0x03#8) then 20 else 0)

/-- A command that raises has no effect but the one its rule states: nothing, or `FAULTED <- 1`
(60_exceptions.md section 3). -/
def Obligations.RefusedCommandWritesNothingElse : Prop :=
  ∀ (s t : State) (op : Byte) (payload : List Byte) (rest : List HostAction) (r : Response),
    s.host = .command op payload :: rest → step s = .next t → t.responses = s.responses ++ [r] →
    r.status ≠ .ok →
      t = { s with
            host := rest, responses := s.responses ++ [r],
            faulted := s.faulted || decide (r.status = .faultBlocklen) }

/-! ### The commands -/

/-- INIT in every phase of an unfaulted engine (41_streaming.md section 2; that every phase accepts it is the spec's
decision D12). Everything not named is unchanged. -/
def Obligations.InitStartsFreshContext : Prop :=
  ∀ s : State, s.faulted = false →
    exec .init s = .next
      { s with
        h := ⟨0x67452301#32, 0xEFCDAB89#32, 0x98BADCFE#32, 0x10325476#32, 0xC3D2E1F0#32⟩,
        buf := [], len := 0#64, phase := .empty, responses := s.responses ++ [⟨.ok, []⟩] }

/-- R142: UPDATE in every state. On an accepting state the whole blocks of `BUF ++ data` are compressed, the
remainder kept and the counter advanced, for every number of bytes; otherwise it raises and writes nothing.
Everything not named is unchanged. -/
def Obligations.UpdateAbsorbsItsPayload : Prop :=
  ∀ (data : List Byte) (s : State),
    (s.faulted = true →
      exec (.update data) s = .next { s with responses := s.responses ++ [⟨.errFaulted, []⟩] }) ∧
    (s.faulted = false → s.phase = .finalized →
      exec (.update data) s = .next { s with responses := s.responses ++ [⟨.errState, []⟩] }) ∧
    (s.faulted = false → s.phase ≠ .finalized →
      exec (.update data) s = .next
        { s with
          h := compressBlocks s.h ((s.buf ++ data).take (64 * ((s.buf ++ data).length / 64))),
          buf := (s.buf ++ data).drop (64 * ((s.buf ++ data).length / 64)),
          len := BitVec.ofNat 64 ((s.len.toNat + data.length) % 2 ^ 64),
          phase := .absorbing, responses := s.responses ++ [⟨.ok, []⟩] } ∧
      ((s.buf ++ data).drop (64 * ((s.buf ++ data).length / 64))).length =
        (s.buf.length + data.length) % 64)

/-- UPDATE with no bytes is the identity on `H`, `BUF`, `LEN` (41_streaming.md section 3; the spec's decision D7). -/
def Obligations.EmptyUpdateIsIdentity : Prop :=
  ∀ s : State, s.faulted = false → s.phase ≠ .finalized → s.buf.length ≤ 63 →
    exec (.update []) s = .next
      { s with phase := .absorbing, responses := s.responses ++ [⟨.ok, []⟩] }

/-- FINALIZE on an accepting state, `Empty` among them (42_finalize.md section 2). `LEN` is left as it was (the spec's
decision D13) and the bit count keeps 64 bits (D6, log 12). Everything not named is unchanged. -/
def Obligations.FinalizeReturnsTheDigest : Prop :=
  ∀ (s : State) (h' : Chain), s.faulted = false → s.phase ≠ .finalized → s.buf.length ≤ 63 →
    h' = compressBlocks s.h
      (s.buf ++ [0x80#8] ++ List.replicate ((119 - s.buf.length) % 64) 0#8 ++
        bytes64 (BitVec.ofNat 64 (s.len.toNat * 8))) →
      exec .finalize s = .next
        { s with
          h := h', buf := [], phase := .finalized,
          responses := s.responses ++
            [⟨.ok, bytes32 h'.a ++ bytes32 h'.b ++ bytes32 h'.c ++ bytes32 h'.d ++ bytes32 h'.e⟩] }

/-- R164: FINALIZE in `Finalized` raises `ERR_STATE`, returns an empty payload, leaves the state unchanged. -/
def Obligations.SecondFinalizeFails : Prop :=
  ∀ s : State, s.faulted = false → s.phase = .finalized →
    exec .finalize s = .next { s with responses := s.responses ++ [⟨.errState, []⟩] }

/-- COMPRESS on a payload of 20 bytes and whole blocks, in every phase: the result depends on the operand alone
and nothing but the response is written (40_compress.md section 4; the spec's decisions D10 and D11). -/
def Obligations.CompressReturnsTheNewState : Prop :=
  ∀ (s : State) (x h' : Chain) (blocks : List Byte), s.faulted = false → blocks.length % 64 = 0 →
    h' = compressBlocks x blocks →
      exec (.compress
          (bytes32 x.a ++ bytes32 x.b ++ bytes32 x.c ++ bytes32 x.d ++ bytes32 x.e ++ blocks)) s =
        .next { s with responses := s.responses ++
          [⟨.ok, bytes32 h'.a ++ bytes32 h'.b ++ bytes32 h'.c ++ bytes32 h'.d ++ bytes32 h'.e⟩] }

/-- COMPRESS on a payload of any other length sets `FAULTED`, compresses nothing and changes nothing else
(60_exceptions.md section 2; the spec's decision D9). -/
def Obligations.MalformedCompressFaults : Prop :=
  ∀ (s : State) (payload : List Byte), s.faulted = false →
    ¬ (∃ k, payload.length = 20 + 64 * k) →
      exec (.compress payload) s = .next
        { s with faulted := true, responses := s.responses ++ [⟨.faultBlocklen, []⟩] }

/-- Reset and INIT leave the same context; reset clears `FAULTED` and is accepted when it is set, INIT does
neither (70_reset_and_hazards.md section 1, an inference of the spec). -/
def Obligations.ResetAndInitDifferInFaultedOnly : Prop :=
  ∀ (s t : State) (c : Option (Byte × List Byte)) (rest : List HostAction),
    step { s with host := .reset c :: rest } = .next t →
      t.faulted = false ∧
      (s.faulted = false → ∃ u, exec .init s = .next u ∧
        u.h = t.h ∧ u.buf = t.buf ∧ u.len = t.len ∧ u.phase = t.phase) ∧
      (s.faulted = true → ∃ u, exec .init s = .next u ∧ u.faulted = true)

/-! ### The internal steps -/

/-- R52, R101: LOADW reads word `t` of a 64-byte block big-endian, for every `t` in `[0,16)`, and writes nothing
else. The rules speak of a block of 64 bytes, so the length is a premise (log 15). -/
def Obligations.LoadwReadsBigEndian : Prop :=
  (∀ (s : State) (t : Nat), s.scratch.blk.length = 64 → t < 16 →
    ∃ u : State, exec (.loadw t) s = .next u ∧
      u.scratch.word t = BitVec.ofNat 32
        ((s.scratch.blk.getD (4 * t) 0#8).toNat * 2 ^ 24 +
          (s.scratch.blk.getD (4 * t + 1) 0#8).toNat * 2 ^ 16 +
          (s.scratch.blk.getD (4 * t + 2) 0#8).toNat * 2 ^ 8 +
          (s.scratch.blk.getD (4 * t + 3) 0#8).toNat) ∧
      (∀ i, i ≠ t → u.scratch.word i = s.scratch.word i) ∧
      u = { s with scratch := { s.scratch with w := u.scratch.w } }) ∧
  ∀ (s u : State) (more : List Byte), s.scratch.blk.length = 64 →
    s.scratch.blk = 0x61#8 :: 0x62#8 :: 0x63#8 :: 0x80#8 :: more →
    exec (.loadw 0) s = .next u → u.scratch.word 0 = 0x61626380#32

/-- R102: SCHED makes word `t` from the four words before it, for every `t` in `[16,80)`, and writes nothing
else. -/
def Obligations.SchedExpandsTheSchedule : Prop :=
  ∀ (s : State) (t : Nat), 16 ≤ t → t < 80 →
    ∃ u : State, exec (.sched t) s = .next u ∧
      u.scratch.word t =
        (s.scratch.word (t - 16) ^^^ s.scratch.word (t - 14) ^^^ s.scratch.word (t - 8) ^^^
          s.scratch.word (t - 3)).rotateLeft 1 ∧
      (∀ i, i ≠ t → u.scratch.word i = s.scratch.word i) ∧
      u = { s with scratch := { s.scratch with w := u.scratch.w } }

/-- R103: INITV copies the state to the working variables and keeps the state. -/
def Obligations.InitvCopiesTheState : Prop :=
  ∀ s : State, exec .initv s = .next { s with scratch := { s.scratch with vars := s.scratch.chain } }

/-- R104, R106, R108: each round is one simultaneous update of the working variables with its phase's function
and constant, and writes nothing else. -/
def Obligations.RoundsMixTheirPhase : Prop :=
  ∀ (s : State) (t : Nat) (a b c d e : Word), s.scratch.vars = ⟨a, b, c, d, e⟩ →
    (t < 20 → exec (.roundCh t) s = .next { s with scratch := { s.scratch with vars :=
      ⟨a.rotateLeft 5 + ((b &&& c) ||| (~~~b &&& d)) + e + 0x5A827999#32 + s.scratch.word t,
        a, b.rotateLeft 30, c, d⟩ } }) ∧
    (20 ≤ t → t < 40 → exec (.roundPar1 t) s = .next { s with scratch := { s.scratch with vars :=
      ⟨a.rotateLeft 5 + (b ^^^ c ^^^ d) + e + 0x6ED9EBA1#32 + s.scratch.word t,
        a, b.rotateLeft 30, c, d⟩ } }) ∧
    (40 ≤ t → t < 60 → exec (.roundMaj t) s = .next { s with scratch := { s.scratch with vars :=
      ⟨a.rotateLeft 5 + ((b &&& c) ||| (b &&& d) ||| (c &&& d)) + e + 0x8F1BBCDC#32 + s.scratch.word t,
        a, b.rotateLeft 30, c, d⟩ } }) ∧
    (60 ≤ t → t < 80 → exec (.roundPar2 t) s = .next { s with scratch := { s.scratch with vars :=
      ⟨a.rotateLeft 5 + (b ^^^ c ^^^ d) + e + 0xCA62C1D6#32 + s.scratch.word t,
        a, b.rotateLeft 30, c, d⟩ } })

/-- R109: FEEDFWD adds the state before the block to the working variables, word by word. -/
def Obligations.FeedfwdAddsTheOldState : Prop :=
  ∀ s : State,
    exec .feedfwd s = .next { s with scratch := { s.scratch with out :=
      ⟨s.scratch.chain.a + s.scratch.vars.a, s.scratch.chain.b + s.scratch.vars.b,
        s.scratch.chain.c + s.scratch.vars.c, s.scratch.chain.d + s.scratch.vars.d,
        s.scratch.chain.e + s.scratch.vars.e⟩ } }

/-- PAD1 makes one trailing block, PAD2 two; neither writes engine state (42_finalize.md section 1; the bit count
keeps 64 bits by the spec's decision D6, log 12). -/
def Obligations.PadStepsMakeTheTail : Prop :=
  ∀ s : State,
    (s.buf.length ≤ 55 → ∃ tail : List Byte,
      exec .pad1 s = .next { s with scratch := { s.scratch with tail := tail } } ∧
      tail = s.buf ++ [0x80#8] ++ List.replicate (55 - s.buf.length) 0#8 ++
        bytes64 (BitVec.ofNat 64 (s.len.toNat * 8)) ∧ tail.length = 64) ∧
    (56 ≤ s.buf.length → s.buf.length ≤ 63 → ∃ tail : List Byte,
      exec .pad2 s = .next { s with scratch := { s.scratch with tail := tail } } ∧
      tail = s.buf ++ [0x80#8] ++ List.replicate (119 - s.buf.length) 0#8 ++
        bytes64 (BitVec.ofNat 64 (s.len.toNat * 8)) ∧ tail.length = 128)

/-- The step the padding selector picks makes the tail that FINALIZE compresses: in every accepting state
(42_finalize.md sections 1 and 2; 30_encoding.md section 4). -/
def Obligations.FinalizeCompressesTheSelectedTail : Prop :=
  ∀ s : State, s.faulted = false → s.phase ≠ .finalized → s.buf.length ≤ 63 →
    ∃ u v : State, exec (if s.buf.length ≤ 55 then .pad1 else .pad2) s = .next u ∧
      exec .finalize s = .next v ∧ v.h = compressBlocks s.h u.scratch.tail ∧
      u.scratch.tail.length = (if s.buf.length ≤ 55 then 64 else 128)

/-- The model's choice (log 5): an internal step outside the range of its selector stops under a name. -/
def Obligations.UnselectedInternalStepsStop : Prop :=
  ∀ (s : State) (t : Nat),
    (16 ≤ t → exec (.loadw t) s = .fault .indexOutOfRange) ∧
    (¬ (16 ≤ t ∧ t < 80) → exec (.sched t) s = .fault .indexOutOfRange) ∧
    (20 ≤ t → exec (.roundCh t) s = .fault .indexOutOfRange) ∧
    (¬ (20 ≤ t ∧ t < 40) → exec (.roundPar1 t) s = .fault .indexOutOfRange) ∧
    (¬ (40 ≤ t ∧ t < 60) → exec (.roundMaj t) s = .fault .indexOutOfRange) ∧
    (¬ (60 ≤ t ∧ t < 80) → exec (.roundPar2 t) s = .fault .indexOutOfRange) ∧
    (56 ≤ s.buf.length → exec .pad1 s = .fault .paddingNotSelected) ∧
    (s.buf.length ≤ 55 → exec .pad2 s = .fault .paddingNotSelected)

/-- Whole machine: no internal step writes engine state, the host's list or a response (10_state.md sections 2 and
3). -/
def Obligations.InternalStepsWriteWorkingStorageOnly : Prop :=
  ∀ (i : Instr) (s t : State), i.isCommand = false → exec i s = .next t →
    t = { s with scratch := t.scratch }

/-- Whole machine: no step of the engine leaves anything in the working storage, so nothing but the engine state
survives from one command to the next (10_state.md sections 1, 2 and 3; the idle value is the model's, log 2). -/
def Obligations.WorkingStorageStaysIdle : Prop :=
  ∀ s t : State, s.scratch = Scratch.idle → step s = .next t → t.scratch = Scratch.idle

/-! ### Primitives, byte order, padding -/

/-- `ROTL(n,x)` for every `0 < n < 32`, by value and by bit (00_scope.md section 5). -/
def Obligations.RotateMovesEveryBit : Prop :=
  ∀ (n : Nat) (x : Word), 0 < n → n < 32 →
    (rotl n x).toNat = (x.toNat * 2 ^ n) % 2 ^ 32 + x.toNat / 2 ^ (32 - n) ∧
    ∀ i, i < 32 → (rotl n x).getLsbD ((i + n) % 32) = x.getLsbD i

/-- The truth tables of the round functions, per bit position (40_compress.md section 5, an inference of the
spec). -/
def Obligations.RoundFunctionTruthTables : Prop :=
  ∀ (b c d : Word) (i : Nat), i < 32 →
    (fCh b c d).getLsbD i =
      (match b.getLsbD i, c.getLsbD i, d.getLsbD i with
        | false, false, false => false | false, false, true => true
        | false, true, false => false | false, true, true => true
        | true, false, false => false | true, false, true => false
        | true, true, false => true | true, true, true => true) ∧
    (fParity b c d).getLsbD i =
      (match b.getLsbD i, c.getLsbD i, d.getLsbD i with
        | false, false, false => false | false, false, true => true
        | false, true, false => true | false, true, true => false
        | true, false, false => true | true, false, true => false
        | true, true, false => false | true, true, true => true) ∧
    (fMaj b c d).getLsbD i =
      (match b.getLsbD i, c.getLsbD i, d.getLsbD i with
        | false, false, false => false | false, false, true => false
        | false, true, false => false | false, true, true => true
        | true, false, false => false | true, false, true => true
        | true, true, false => true | true, true, true => true)

/-- R81: which step produces schedule word `t`, for every `t` in `[0,80)`, by the decoder and inside the
compression. -/
def Obligations.ScheduleSelectorPicksTheStep : Prop :=
  ∀ (t : Nat) (sc : Scratch),
    (t < 16 → scheduleSelector t = 0#1 ∧ decode (.schedule 0#1 t) = .ok (.loadw t) ∧
      sc.scheduleStep t = sc.loadw t) ∧
    (16 ≤ t → t < 80 → scheduleSelector t = 1#1 ∧ decode (.schedule 1#1 t) = .ok (.sched t) ∧
      sc.scheduleStep t = sc.sched t)

/-- R80: round `t` has phase `t div 20`, for every `t` in `[0,80)`, and the phase picks the mnemonic, the function
and the constant. -/
def Obligations.PhaseSelectorPicksTheRound : Prop :=
  ∀ (t : Nat) (sc : Scratch), t < 80 →
    (phaseSelector t).toNat = t / 20 ∧
    decode (.round (phaseSelector t) t) =
      .ok (if t < 20 then .roundCh t else if t < 40 then .roundPar1 t
        else if t < 60 then .roundMaj t else .roundPar2 t) ∧
    sc.roundStep t = { sc with vars :=
      ⟨rotl 5 sc.vars.a + roundF t sc.vars + sc.vars.e + roundK t + sc.word t,
        sc.vars.a, rotl 30 sc.vars.b, sc.vars.c, sc.vars.d⟩ }

/-- R54: digest byte `4i+k` is bits `[31-8k : 24-8k]` of `H[i]`. -/
def Obligations.DigestIsBigEndian : Prop :=
  ∀ (c : Chain), (chainBytes c).length = 20 ∧
    (∀ i k, i < 5 → k < 4 →
      (chainBytes c)[4 * i + k]? =
        some (([c.a, c.b, c.c, c.d, c.e].getD i 0#32).extractLsb' (24 - 8 * k) 8)) ∧
    (c.a = 0xDA39A3EE#32 → (chainBytes c).take 4 = [0xDA#8, 0x39#8, 0xA3#8, 0xEE#8])

/-- Reading five words from 20 bytes is the inverse of writing them, in both directions (30_encoding.md section
3; for COMPRESS the byte form is the spec's decision D10). -/
def Obligations.StateSerialisationRoundTrips : Prop :=
  (∀ (c : Chain) (more : List Byte), stateOperand (chainBytes c ++ more) = c) ∧
  ∀ payload : List Byte, 20 ≤ payload.length →
    chainBytes (stateOperand payload) ++ blocksOperand payload = payload

/-- The bit count stands in the last 8 bytes of the padded tail, most significant byte first, at an offset that is
56 mod 64; a count of 24 gives `00 .. 00 18` (20_memory.md section 2). That the count is `LEN * 8` mod 2^64 for every
`LEN` is the spec's decision D6 (30_encoding.md section 3, log 12). -/
def Obligations.LengthFieldIsBigEndian : Prop :=
  (∀ (buf : List Byte) (len : Counter) (k : Nat), buf.length ≤ 63 → k < 8 →
    ((pad buf len).length - 8) % 64 = 56 ∧
    (pad buf len)[(pad buf len).length - 8 + k]? =
      some (BitVec.ofNat 8 ((len.toNat * 8 % 2 ^ 64) / 2 ^ (56 - 8 * k)))) ∧
  bytes64 24#64 = [0x00#8, 0x00#8, 0x00#8, 0x00#8, 0x00#8, 0x00#8, 0x00#8, 0x18#8]

/-- The bit count keeps the low 64 bits: `LEN` shifted left by 3 (30_encoding.md section 3; the spec's decision D6). -/
def Obligations.BitcountShiftsByThree : Prop :=
  ∀ len : Counter, (bitcount len).toNat = len.toNat * 8 % 2 ^ 64 ∧
    (∀ i, i < 3 → (bitcount len).getLsbD i = false) ∧
    ∀ i, i < 61 → (bitcount len).getLsbD (i + 3) = len.getLsbD i

/-- The layout of the padded tail: data, marker, zero fill, bit count, and its length of one or two blocks
(30_encoding.md section 3; 42_finalize.md section 1). The count keeps 64 bits by the spec's decision D6 (log 12). -/
def Obligations.PaddedTailLayout : Prop :=
  ∀ (buf : List Byte) (len : Counter), buf.length ≤ 63 →
    (pad buf len).length = (if buf.length ≤ 55 then 64 else 128) ∧
    (pad buf len).take buf.length = buf ∧
    (pad buf len)[buf.length]? = some 0x80#8 ∧
    (∀ i, buf.length < i → i < (pad buf len).length - 8 → (pad buf len)[i]? = some 0x00#8) ∧
    (pad buf len).drop ((pad buf len).length - 8) =
      bytes64 (BitVec.ofNat 64 (len.toNat * 8 % 2 ^ 64))

/-- The padding selector: two trailing blocks exactly when `BUFLEN[5:3] = 7` (30_encoding.md section 4, an inference
of the spec). -/
def Obligations.PaddingSelectorCountsBlocks : Prop :=
  ∀ (buf : List Byte) (len : Counter), buf.length ≤ 63 →
    (paddingSelector buf.length = 1#1 ↔ (BitVec.ofNat 6 buf.length).extractLsb' 3 3 = 7#3) ∧
    (pad buf len).length = 64 * (1 + (paddingSelector buf.length).toNat)

/-! ### The compression -/

/-- Blocks are compressed in order, block `j` with the state that block `j-1` produced; no block, no change
(40_compress.md section 3; the case of no block is an inference of the spec). -/
def Obligations.BlocksAreCompressedInOrder : Prop :=
  ∀ (S : Nat → Chain) (blocks : List Byte) (k : Nat), blocks.length = 64 * k →
    (∀ j, j < k → S (j + 1) = compressBlock (S j) ((blocks.drop (64 * j)).take 64)) →
      compressBlocks (S 0) blocks = S k

/-- R110: for any schedule words and any working variables that follow the recurrences of the rule, the
compression is the state plus the working variables after round 79. -/
def Obligations.CompressBlockFollowsTheRounds : Prop :=
  ∀ (S : Chain) (blk : List Byte) (W : Nat → Word) (v : Nat → Chain), blk.length = 64 →
    (∀ t, t < 16 → W t = be32At blk (4 * t)) →
    (∀ t, 16 ≤ t → t < 80 →
      W t = (W (t - 16) ^^^ W (t - 14) ^^^ W (t - 8) ^^^ W (t - 3)).rotateLeft 1) →
    v 0 = S →
    (∀ t, t < 80 → v (t + 1) =
      ⟨(v t).a.rotateLeft 5 + roundF t (v t) + (v t).e + roundK t + W t,
        (v t).a, (v t).b.rotateLeft 30, (v t).c, (v t).d⟩) →
      compressBlock S blk =
        ⟨S.a + (v 80).a, S.b + (v 80).b, S.c + (v 80).c, S.d + (v 80).d, S.e + (v 80).e⟩

/-- R100: the internal steps of the opcode table, run one after the other from any working storage, compute the
compression of the block and the state in it, and touch nothing of the engine. Running the steps one by one
through `exec` is the model's form of them (log 1); the composition is the rule's. -/
def Obligations.InternalStepsComputeTheBlock : Prop :=
  ∀ s : State, s.scratch.blk.length = 64 →
    ∃ t : State, execAll blockSteps s = .next t ∧
      t.scratch.out = compressBlock s.scratch.chain s.scratch.blk ∧
      t.scratch.chain = s.scratch.chain ∧ t.scratch.blk = s.scratch.blk ∧
      t = { s with scratch := t.scratch }

/-- Keeping a window of 16 schedule words gives the same compression (40_compress.md section 5, an inference of
the spec). -/
def Obligations.SixteenWordWindowSuffices : Prop :=
  ∀ (S : Chain) (blk : List Byte), blk.length = 64 → windowCompress S blk = compressBlock S blk

/-! ### Messages -/

/-- Absorbing two pieces is absorbing their concatenation, and the digest is the same (41_streaming.md section 3;
the form in terms of states is an inference of the spec). -/
def Obligations.SplitUpdatesAgree : Prop :=
  ∀ (s : State) (d1 d2 : List Byte), s.faulted = false → s.phase ≠ .finalized →
    ∃ t1 t2 u f g : State,
      exec (.update d1) s = .next t1 ∧ exec (.update d2) t1 = .next t2 ∧
      exec (.update (d1 ++ d2)) s = .next u ∧ SameEngine t2 u ∧
      exec .finalize t2 = .next f ∧ exec .finalize u = .next g ∧
      f.responses.getLast? = g.responses.getLast? ∧ SameEngine f g

/-- A byte-serial UPDATE gives the state of the block form (41_streaming.md section 3, an inference of the spec). -/
def Obligations.ByteSerialUpdateAgrees : Prop :=
  ∀ (s : State) (data : List Byte), s.faulted = false → s.phase ≠ .finalized → s.buf.length ≤ 63 →
    exec (.update data) s = .next
      { data.foldl absorbByte s with
        phase := .absorbing, responses := s.responses ++ [⟨.ok, []⟩] }

/-- The invariant of 10_state.md section 9 holds after reset. -/
def Obligations.ContextInvariantAtReset : Prop := State.reset.ContextInv

/-- Every step keeps the invariant of 10_state.md section 9 (an inference of the spec), from every state that has
it. -/
def Obligations.StepKeepsContextInvariant : Prop :=
  ∀ s t : State, s.ContextInv → step s = .next t → t.ContextInv

/-- The context holds the message absorbed since INIT: INIT and reset begin the empty message, UPDATE appends to
it, and COMPRESS leaves it (10_state.md section 9 (d), an inference of the spec). -/
def Obligations.ContextHoldsTheMessage : Prop :=
  State.reset.Holds [] ∧
  (∀ s : State, s.faulted = false → ∃ t, exec .init s = .next t ∧ t.Holds []) ∧
  (∀ (s : State) (m d : List Byte), s.faulted = false → s.Holds m →
    ∃ t, exec (.update d) s = .next t ∧ t.Holds (m ++ d)) ∧
  ∀ (s : State) (m p : List Byte), s.Holds m → ∃ t, exec (.compress p) s = .next t ∧ t.Holds m

/-- FINALIZE of a context that holds `M` answers the serialisation of the padded message folded from the IV
(42_finalize.md section 2, an inference of the spec). -/
def Obligations.WholeMessageDigest : Prop :=
  ∀ (s : State) (m : List Byte), s.faulted = false → s.Holds m → m.length < 2 ^ 61 →
    ∃ t, exec .finalize s = .next t ∧ t.phase = .finalized ∧
      t.responses = s.responses ++ [⟨.ok, chainBytes (compressBlocks
        ⟨0x67452301#32, 0xEFCDAB89#32, 0x98BADCFE#32, 0x10325476#32, 0xC3D2E1F0#32⟩
        (paddedMessage m))⟩]

/-- A whole run: INIT, any UPDATEs, FINALIZE, from any unfaulted state, answers `OK` to each and the digest of the
concatenated pieces last (42_finalize.md section 2, an inference of the spec; `HASH` is the case of one piece,
30_encoding.md section 5). -/
def Obligations.StreamedMessageRunsToItsDigest : Prop :=
  ∀ (s : State) (pieces : List (List Byte)) (rest : List HostAction), s.faulted = false →
    s.host = (HostAction.command 0x00#8 [] :: pieces.map (HostAction.command 0x01#8)) ++
      HostAction.command 0x02#8 [] :: rest →
    pieces.flatten.length < 2 ^ 61 →
      ∃ t : State, Host.Core.run core (pieces.length + 2) s = .next t ∧ t.host = rest ∧
        t.phase = .finalized ∧ t.faulted = false ∧
        t.responses = s.responses ++ List.replicate (pieces.length + 1) ⟨.ok, []⟩ ++
          [⟨.ok, chainBytes (compressBlocks
            ⟨0x67452301#32, 0xEFCDAB89#32, 0x98BADCFE#32, 0x10325476#32, 0xC3D2E1F0#32⟩
            (paddedMessage pieces.flatten))⟩]

/-- No state leaks from one message to the next: two engines that share only the host's actions answer alike in
every run that begins with a reset, or with an accepted INIT (70_reset_and_hazards.md section 3). -/
def Obligations.NothingLeaksPastInitOrReset : Prop :=
  ∀ (n : Nat) (s s' t : State), s.host = s'.host →
    ((∃ c rest, s.host = .reset c :: rest) ∨
      (s.faulted = false ∧ s'.faulted = false ∧ ∃ rest, s.host = .command 0x00#8 [] :: rest)) →
    Host.Core.run core (n + 1) s = .next t →
      ∃ (t' : State) (answers : List Response), Host.Core.run core (n + 1) s' = .next t' ∧
        SameEngine t t' ∧ t.responses = s.responses ++ answers ∧
        t'.responses = s'.responses ++ answers

/-- The step lemma under `NothingLeaksPastInitOrReset`: two states with the same engine state and the same pending
actions step alike, whatever else they hold, and are again such a pair after equal answers
(70_reset_and_hazards.md section 3; 10_state.md section 1). -/
def Obligations.StepKeepsEnginesAlike : Prop :=
  ∀ s s' t : State, SameEngine s s' → s.host = s'.host → step s = .next t →
    ∃ (t' : State) (answers : List Response), step s' = .next t' ∧ SameEngine t t' ∧
      t.host = t'.host ∧ t.responses = s.responses ++ answers ∧
      t'.responses = s'.responses ++ answers

/-- No response depends on the difference between `Empty` and `Absorbing` (10_state.md section 5, an inference of the
spec): one step of two states that differ in that alone gives the same response and, again, at most that
difference. -/
def Obligations.EmptyAndAbsorbingAnswerAlike : Prop :=
  ∀ s t : State, s.phase = .empty → step s = .next t →
    ∃ t' : State, step { s with phase := .absorbing } = .next t' ∧ t'.responses = t.responses ∧
      (t' = t ∨ (t.phase = .empty ∧ t' = { t with phase := .absorbing }))

/-- `Finalized` is terminal for the context: only an INIT or a reset changes it, and until then `H` keeps the
words of the digest (10_state.md section 7; 41_streaming.md section 1; 42_finalize.md section 2). -/
def Obligations.FinalizedContextIsFrozen : Prop :=
  ∀ s t : State, s.phase = .finalized → step s = .next t →
    (∀ rest, s.host ≠ .command 0x00#8 [] :: rest) → (∀ c rest, s.host ≠ .reset c :: rest) →
      t.h = s.h ∧ t.buf = s.buf ∧ t.len = s.len ∧ t.phase = .finalized

/-- The state machine's table, for every phase and every command of an unfaulted engine (41_streaming.md section 1;
INIT in every phase is the spec's decision D12, COMPRESS in every phase D10). -/
def Obligations.PhaseFollowsTheTable : Prop :=
  ∀ s : State, s.faulted = false →
    (∃ t, exec .init s = .next t ∧ t.phase = .empty) ∧
    (∀ data, ∃ t r, exec (.update data) s = .next t ∧ t.responses = s.responses ++ [r] ∧
      (s.phase = .finalized → t.phase = .finalized ∧ r.status = .errState) ∧
      (s.phase ≠ .finalized → t.phase = .absorbing ∧ r.status = .ok)) ∧
    (∃ t r, exec .finalize s = .next t ∧ t.responses = s.responses ++ [r] ∧ t.phase = .finalized ∧
      (s.phase = .finalized → r.status = .errState) ∧ (s.phase ≠ .finalized → r.status = .ok)) ∧
    ∀ payload, ∃ t, exec (.compress payload) s = .next t ∧ t.phase = s.phase

/-- The numbers by which statuses and phases are seen (30_encoding.md section 2, 10_state.md section 5; the spec's
decisions D4 and D7), and the form of a response. -/
def Obligations.StatusAndPhaseNumbers : Prop :=
  Status.ok.code = 0x00#8 ∧ Status.errState.code = 0x01#8 ∧ Status.errIllegalCmd.code = 0x02#8 ∧
    Status.faultBlocklen.code = 0x03#8 ∧ Status.errFaulted.code = 0x04#8 ∧
    Phase.empty.field = 0#2 ∧ Phase.absorbing.field = 1#2 ∧ Phase.finalized.field = 2#2 ∧
    (∀ st : Status, st.code.toNat ≤ 4) ∧ (∀ p : Phase, p.field ≠ 3#2) ∧
    ∀ r : Response, r.bytes = r.status.code :: r.payload
end

