-- ==== Sys2Proof/Laws/State.lean ====
section
/-! SUPPORT. One lemma per field per update of the state and of the working storage, true by `rfl` (the rounds' by
one unfolding, which keeps the kernel from comparing sums of words), so that no later proof unfolds a record
update. -/

namespace Sys2Proof.Machine

variable (s : State) (sc : Scratch)

/-! ### `State.respond` -/

@[simp] theorem State.respond_h (st : Status) (p : List Byte) :
    (s.respond st p).h = s.h := rfl

@[simp] theorem State.respond_buf (st : Status) (p : List Byte) :
    (s.respond st p).buf = s.buf := rfl

@[simp] theorem State.respond_len (st : Status) (p : List Byte) :
    (s.respond st p).len = s.len := rfl

@[simp] theorem State.respond_phase (st : Status) (p : List Byte) :
    (s.respond st p).phase = s.phase := rfl

@[simp] theorem State.respond_faulted (st : Status) (p : List Byte) :
    (s.respond st p).faulted = s.faulted := rfl

@[simp] theorem State.respond_scratch (st : Status) (p : List Byte) :
    (s.respond st p).scratch = s.scratch := rfl

@[simp] theorem State.respond_host (st : Status) (p : List Byte) :
    (s.respond st p).host = s.host := rfl

@[simp] theorem State.respond_responses (st : Status) (p : List Byte) :
    (s.respond st p).responses = s.responses ++ [⟨st, p⟩] := rfl

/-! ### `State.raise` -/

@[simp] theorem State.raise_h (st : Status) :
    (s.raise st).h = s.h := rfl

@[simp] theorem State.raise_buf (st : Status) :
    (s.raise st).buf = s.buf := rfl

@[simp] theorem State.raise_len (st : Status) :
    (s.raise st).len = s.len := rfl

@[simp] theorem State.raise_phase (st : Status) :
    (s.raise st).phase = s.phase := rfl

@[simp] theorem State.raise_faulted (st : Status) :
    (s.raise st).faulted = faultedAfter st s.faulted := rfl

@[simp] theorem State.raise_scratch (st : Status) :
    (s.raise st).scratch = s.scratch := rfl

@[simp] theorem State.raise_host (st : Status) :
    (s.raise st).host = s.host := rfl

@[simp] theorem State.raise_responses (st : Status) :
    (s.raise st).responses = s.responses ++ [⟨st, []⟩] := rfl

/-! ### `State.freshContext` -/

@[simp] theorem State.freshContext_h :
    (s.freshContext).h = iv := rfl

@[simp] theorem State.freshContext_buf :
    (s.freshContext).buf = [] := rfl

@[simp] theorem State.freshContext_len :
    (s.freshContext).len = 0#64 := rfl

@[simp] theorem State.freshContext_phase :
    (s.freshContext).phase = .empty := rfl

@[simp] theorem State.freshContext_faulted :
    (s.freshContext).faulted = s.faulted := rfl

@[simp] theorem State.freshContext_scratch :
    (s.freshContext).scratch = s.scratch := rfl

@[simp] theorem State.freshContext_host :
    (s.freshContext).host = s.host := rfl

@[simp] theorem State.freshContext_responses :
    (s.freshContext).responses = s.responses := rfl

/-! ### `State.hostReset` -/

@[simp] theorem State.hostReset_h :
    (s.hostReset).h = iv := rfl

@[simp] theorem State.hostReset_buf :
    (s.hostReset).buf = [] := rfl

@[simp] theorem State.hostReset_len :
    (s.hostReset).len = 0#64 := rfl

@[simp] theorem State.hostReset_phase :
    (s.hostReset).phase = .empty := rfl

@[simp] theorem State.hostReset_faulted :
    (s.hostReset).faulted = false := rfl

@[simp] theorem State.hostReset_scratch :
    (s.hostReset).scratch = Scratch.idle := rfl

@[simp] theorem State.hostReset_host :
    (s.hostReset).host = s.host := rfl

@[simp] theorem State.hostReset_responses :
    (s.hostReset).responses = s.responses := rfl

/-! ### `State.absorb` -/

@[simp] theorem State.absorb_h (data : List Byte) :
    (s.absorb data).h = compressBlocks s.h (fullBlocks (pendingWith s.buf data)) := rfl

@[simp] theorem State.absorb_buf (data : List Byte) :
    (s.absorb data).buf = remainder (pendingWith s.buf data) := rfl

@[simp] theorem State.absorb_len (data : List Byte) :
    (s.absorb data).len = s.len + BitVec.ofNat 64 data.length := rfl

@[simp] theorem State.absorb_phase (data : List Byte) :
    (s.absorb data).phase = .absorbing := rfl

@[simp] theorem State.absorb_faulted (data : List Byte) :
    (s.absorb data).faulted = s.faulted := rfl

@[simp] theorem State.absorb_scratch (data : List Byte) :
    (s.absorb data).scratch = s.scratch := rfl

@[simp] theorem State.absorb_host (data : List Byte) :
    (s.absorb data).host = s.host := rfl

@[simp] theorem State.absorb_responses (data : List Byte) :
    (s.absorb data).responses = s.responses := rfl

/-! ### `State.close` -/

@[simp] theorem State.close_h :
    (s.close).h = compressBlocks s.h (pad s.buf s.len) := rfl

@[simp] theorem State.close_buf :
    (s.close).buf = [] := rfl

@[simp] theorem State.close_len :
    (s.close).len = s.len := rfl

@[simp] theorem State.close_phase :
    (s.close).phase = .finalized := rfl

@[simp] theorem State.close_faulted :
    (s.close).faulted = s.faulted := rfl

@[simp] theorem State.close_scratch :
    (s.close).scratch = s.scratch := rfl

@[simp] theorem State.close_host :
    (s.close).host = s.host := rfl

@[simp] theorem State.close_responses :
    (s.close).responses = s.responses := rfl

/-! ### `State.withScratch` -/

@[simp] theorem State.withScratch_h (x : Scratch) :
    (s.withScratch x).h = s.h := rfl

@[simp] theorem State.withScratch_buf (x : Scratch) :
    (s.withScratch x).buf = s.buf := rfl

@[simp] theorem State.withScratch_len (x : Scratch) :
    (s.withScratch x).len = s.len := rfl

@[simp] theorem State.withScratch_phase (x : Scratch) :
    (s.withScratch x).phase = s.phase := rfl

@[simp] theorem State.withScratch_faulted (x : Scratch) :
    (s.withScratch x).faulted = s.faulted := rfl

@[simp] theorem State.withScratch_scratch (x : Scratch) :
    (s.withScratch x).scratch = x := rfl

@[simp] theorem State.withScratch_host (x : Scratch) :
    (s.withScratch x).host = s.host := rfl

@[simp] theorem State.withScratch_responses (x : Scratch) :
    (s.withScratch x).responses = s.responses := rfl

@[simp] theorem State.withScratch_withScratch (x y : Scratch) :
    (s.withScratch x).withScratch y = s.withScratch y := rfl

/-! ### `State.withHost` -/

@[simp] theorem State.withHost_h (rest : List HostAction) :
    (s.withHost rest).h = s.h := rfl

@[simp] theorem State.withHost_buf (rest : List HostAction) :
    (s.withHost rest).buf = s.buf := rfl

@[simp] theorem State.withHost_len (rest : List HostAction) :
    (s.withHost rest).len = s.len := rfl

@[simp] theorem State.withHost_phase (rest : List HostAction) :
    (s.withHost rest).phase = s.phase := rfl

@[simp] theorem State.withHost_faulted (rest : List HostAction) :
    (s.withHost rest).faulted = s.faulted := rfl

@[simp] theorem State.withHost_scratch (rest : List HostAction) :
    (s.withHost rest).scratch = s.scratch := rfl

@[simp] theorem State.withHost_host (rest : List HostAction) :
    (s.withHost rest).host = rest := rfl

@[simp] theorem State.withHost_responses (rest : List HostAction) :
    (s.withHost rest).responses = s.responses := rfl

/-! ### `Scratch.setWord` -/

@[simp] theorem Scratch.setWord_blk (i : Nat) (v : Word) :
    (sc.setWord i v).blk = sc.blk := rfl

@[simp] theorem Scratch.setWord_w (i : Nat) (v : Word) :
    (sc.setWord i v).w = sc.w.setIfInBounds i v := rfl

@[simp] theorem Scratch.setWord_vars (i : Nat) (v : Word) :
    (sc.setWord i v).vars = sc.vars := rfl

@[simp] theorem Scratch.setWord_chain (i : Nat) (v : Word) :
    (sc.setWord i v).chain = sc.chain := rfl

@[simp] theorem Scratch.setWord_out (i : Nat) (v : Word) :
    (sc.setWord i v).out = sc.out := rfl

@[simp] theorem Scratch.setWord_tail (i : Nat) (v : Word) :
    (sc.setWord i v).tail = sc.tail := rfl

/-! ### `Scratch.initv` -/

@[simp] theorem Scratch.initv_blk :
    (sc.initv).blk = sc.blk := rfl

@[simp] theorem Scratch.initv_w :
    (sc.initv).w = sc.w := rfl

@[simp] theorem Scratch.initv_vars :
    (sc.initv).vars = sc.chain := rfl

@[simp] theorem Scratch.initv_chain :
    (sc.initv).chain = sc.chain := rfl

@[simp] theorem Scratch.initv_out :
    (sc.initv).out = sc.out := rfl

@[simp] theorem Scratch.initv_tail :
    (sc.initv).tail = sc.tail := rfl

/-! ### `Scratch.roundCh` -/

@[simp] theorem Scratch.roundCh_blk (t : Nat) :
    (sc.roundCh t).blk = sc.blk := by rw [Scratch.roundCh]

@[simp] theorem Scratch.roundCh_w (t : Nat) :
    (sc.roundCh t).w = sc.w := by rw [Scratch.roundCh]

@[simp] theorem Scratch.roundCh_vars (t : Nat) :
    (sc.roundCh t).vars = mix (fCh sc.vars.b sc.vars.c sc.vars.d) k0 (sc.word t) sc.vars := rfl

@[simp] theorem Scratch.roundCh_chain (t : Nat) :
    (sc.roundCh t).chain = sc.chain := by rw [Scratch.roundCh]

@[simp] theorem Scratch.roundCh_out (t : Nat) :
    (sc.roundCh t).out = sc.out := by rw [Scratch.roundCh]

@[simp] theorem Scratch.roundCh_tail (t : Nat) :
    (sc.roundCh t).tail = sc.tail := by rw [Scratch.roundCh]

/-! ### `Scratch.roundPar1` -/

@[simp] theorem Scratch.roundPar1_blk (t : Nat) :
    (sc.roundPar1 t).blk = sc.blk := by rw [Scratch.roundPar1]

@[simp] theorem Scratch.roundPar1_w (t : Nat) :
    (sc.roundPar1 t).w = sc.w := by rw [Scratch.roundPar1]

@[simp] theorem Scratch.roundPar1_vars (t : Nat) :
    (sc.roundPar1 t).vars = mix (fParity sc.vars.b sc.vars.c sc.vars.d) k1 (sc.word t) sc.vars := rfl

@[simp] theorem Scratch.roundPar1_chain (t : Nat) :
    (sc.roundPar1 t).chain = sc.chain := by rw [Scratch.roundPar1]

@[simp] theorem Scratch.roundPar1_out (t : Nat) :
    (sc.roundPar1 t).out = sc.out := by rw [Scratch.roundPar1]

@[simp] theorem Scratch.roundPar1_tail (t : Nat) :
    (sc.roundPar1 t).tail = sc.tail := by rw [Scratch.roundPar1]

/-! ### `Scratch.roundMaj` -/

@[simp] theorem Scratch.roundMaj_blk (t : Nat) :
    (sc.roundMaj t).blk = sc.blk := by rw [Scratch.roundMaj]

@[simp] theorem Scratch.roundMaj_w (t : Nat) :
    (sc.roundMaj t).w = sc.w := by rw [Scratch.roundMaj]

@[simp] theorem Scratch.roundMaj_vars (t : Nat) :
    (sc.roundMaj t).vars = mix (fMaj sc.vars.b sc.vars.c sc.vars.d) k2 (sc.word t) sc.vars := rfl

@[simp] theorem Scratch.roundMaj_chain (t : Nat) :
    (sc.roundMaj t).chain = sc.chain := by rw [Scratch.roundMaj]

@[simp] theorem Scratch.roundMaj_out (t : Nat) :
    (sc.roundMaj t).out = sc.out := by rw [Scratch.roundMaj]

@[simp] theorem Scratch.roundMaj_tail (t : Nat) :
    (sc.roundMaj t).tail = sc.tail := by rw [Scratch.roundMaj]

/-! ### `Scratch.roundPar2` -/

@[simp] theorem Scratch.roundPar2_blk (t : Nat) :
    (sc.roundPar2 t).blk = sc.blk := by rw [Scratch.roundPar2]

@[simp] theorem Scratch.roundPar2_w (t : Nat) :
    (sc.roundPar2 t).w = sc.w := by rw [Scratch.roundPar2]

@[simp] theorem Scratch.roundPar2_vars (t : Nat) :
    (sc.roundPar2 t).vars = mix (fParity sc.vars.b sc.vars.c sc.vars.d) k3 (sc.word t) sc.vars := rfl

@[simp] theorem Scratch.roundPar2_chain (t : Nat) :
    (sc.roundPar2 t).chain = sc.chain := by rw [Scratch.roundPar2]

@[simp] theorem Scratch.roundPar2_out (t : Nat) :
    (sc.roundPar2 t).out = sc.out := by rw [Scratch.roundPar2]

@[simp] theorem Scratch.roundPar2_tail (t : Nat) :
    (sc.roundPar2 t).tail = sc.tail := by rw [Scratch.roundPar2]

/-! ### `Scratch.feedfwd` -/

@[simp] theorem Scratch.feedfwd_blk :
    (sc.feedfwd).blk = sc.blk := rfl

@[simp] theorem Scratch.feedfwd_w :
    (sc.feedfwd).w = sc.w := rfl

@[simp] theorem Scratch.feedfwd_vars :
    (sc.feedfwd).vars = sc.vars := rfl

@[simp] theorem Scratch.feedfwd_chain :
    (sc.feedfwd).chain = sc.chain := rfl

@[simp] theorem Scratch.feedfwd_out :
    (sc.feedfwd).out = ⟨sc.chain.a + sc.vars.a, sc.chain.b + sc.vars.b, sc.chain.c + sc.vars.c,
      sc.chain.d + sc.vars.d, sc.chain.e + sc.vars.e⟩ := rfl

@[simp] theorem Scratch.feedfwd_tail :
    (sc.feedfwd).tail = sc.tail := rfl

/-! ### `Scratch.pad1` -/

@[simp] theorem Scratch.pad1_blk (buf : List Byte) (len : Counter) :
    (sc.pad1 buf len).blk = sc.blk := rfl

@[simp] theorem Scratch.pad1_w (buf : List Byte) (len : Counter) :
    (sc.pad1 buf len).w = sc.w := rfl

@[simp] theorem Scratch.pad1_vars (buf : List Byte) (len : Counter) :
    (sc.pad1 buf len).vars = sc.vars := rfl

@[simp] theorem Scratch.pad1_chain (buf : List Byte) (len : Counter) :
    (sc.pad1 buf len).chain = sc.chain := rfl

@[simp] theorem Scratch.pad1_out (buf : List Byte) (len : Counter) :
    (sc.pad1 buf len).out = sc.out := rfl

@[simp] theorem Scratch.pad1_tail (buf : List Byte) (len : Counter) :
    (sc.pad1 buf len).tail = padWith (55 - buf.length) buf len := rfl

/-! ### `Scratch.pad2` -/

@[simp] theorem Scratch.pad2_blk (buf : List Byte) (len : Counter) :
    (sc.pad2 buf len).blk = sc.blk := rfl

@[simp] theorem Scratch.pad2_w (buf : List Byte) (len : Counter) :
    (sc.pad2 buf len).w = sc.w := rfl

@[simp] theorem Scratch.pad2_vars (buf : List Byte) (len : Counter) :
    (sc.pad2 buf len).vars = sc.vars := rfl

@[simp] theorem Scratch.pad2_chain (buf : List Byte) (len : Counter) :
    (sc.pad2 buf len).chain = sc.chain := rfl

@[simp] theorem Scratch.pad2_out (buf : List Byte) (len : Counter) :
    (sc.pad2 buf len).out = sc.out := rfl

@[simp] theorem Scratch.pad2_tail (buf : List Byte) (len : Counter) :
    (sc.pad2 buf len).tail = padWith (119 - buf.length) buf len := rfl

end Sys2Proof.Machine
end

