-- ==== Sys2Proof/Laws/Bytes.lean ====
section
/-! SUPPORT. What the word and byte primitives and the operand forms give: lengths, reading back what was
written, and the working storage's words. -/

namespace Sys2Proof.Machine

/-! ### Lengths -/

@[simp] theorem bytes32_length (v : Word) : (bytes32 v).length = 4 := rfl

@[simp] theorem bytes64_length (v : Counter) : (bytes64 v).length = 8 := rfl

@[simp] theorem zeros_length (n : Nat) : (zeros n).length = n := by simp [zeros]

@[simp] theorem chainBytes_length (c : Chain) : (chainBytes c).length = 20 := rfl

@[simp] theorem padWith_length (z : Nat) (buf : List Byte) (len : Counter) :
    (padWith z buf len).length = buf.length + 1 + z + 8 := by
  simp [padWith]; omega

theorem zeroFill_of_short {r : Nat} (h : r ≤ 55) : zeroFill r = 55 - r := by
  unfold zeroFill; omega

theorem zeroFill_of_long {r : Nat} (h : 56 ≤ r) (h' : r ≤ 63) : zeroFill r = 119 - r := by
  unfold zeroFill; omega

/-- The padded tail is whole blocks, for every fill. -/
theorem pad_length_mod (buf : List Byte) (len : Counter) : (pad buf len).length % 64 = 0 := by
  simp only [pad, padWith_length, zeroFill]; omega

theorem remainder_length (x : List Byte) : (remainder x).length = x.length % 64 := by
  simp only [remainder, List.length_drop, Config.blockBytes]; omega

theorem fullBlocks_length (x : List Byte) : (fullBlocks x).length = 64 * (x.length / 64) := by
  simp only [fullBlocks, List.length_take, Config.blockBytes]; omega

theorem fullBlocks_append_remainder (x : List Byte) : fullBlocks x ++ remainder x = x := by
  simp [fullBlocks, remainder]

/-- A sequence shorter than a block has no whole block. -/
theorem fullBlocks_of_short {x : List Byte} (h : x.length < 64) : fullBlocks x = [] := by
  have : x.length / 64 = 0 := by omega
  simp [fullBlocks, Config.blockBytes, this]

theorem remainder_of_short {x : List Byte} (h : x.length < 64) : remainder x = x := by
  have : x.length / 64 = 0 := by omega
  simp [remainder, Config.blockBytes, this]

/-- Whole blocks of a concatenation: those of the first part, then those of its remainder followed by the
second part. -/
theorem fullBlocks_append (x y : List Byte) :
    fullBlocks (x ++ y) = fullBlocks x ++ fullBlocks (remainder x ++ y) := by
  have hx := fullBlocks_append_remainder x
  have hl := fullBlocks_length x
  have hk : 64 * ((x ++ y).length / 64) = (fullBlocks x).length + 64 * ((remainder x ++ y).length / 64) := by
    rw [hl]; simp only [List.length_append, remainder_length]; omega
  show (x ++ y).take (64 * ((x ++ y).length / 64)) = _
  have hxy : x ++ y = fullBlocks x ++ (remainder x ++ y) := by rw [← List.append_assoc, hx]
  rw [hk, hxy]
  exact List.take_length_add_append _

/-- The remainder of a concatenation is that of the first part's remainder followed by the second part. -/
theorem remainder_append (x y : List Byte) : remainder (x ++ y) = remainder (remainder x ++ y) := by
  have h := fullBlocks_append_remainder (x ++ y)
  have h' := fullBlocks_append_remainder (remainder x ++ y)
  have hx := fullBlocks_append_remainder x
  rw [fullBlocks_append, List.append_assoc] at h
  have : fullBlocks x ++ (fullBlocks (remainder x ++ y) ++ remainder (x ++ y)) =
      fullBlocks x ++ (fullBlocks (remainder x ++ y) ++ remainder (remainder x ++ y)) := by
    rw [h, h', ← List.append_assoc, hx]
  simpa using this

/-- A COMPRESS payload is well sized when it is 20 bytes of state and whole blocks. -/
theorem payloadWellSized_iff (payload : List Byte) :
    payloadWellSized payload = true ↔ 20 ≤ payload.length ∧ (payload.length - 20) % 64 = 0 := by
  rw [payloadWellSized, Bool.and_eq_true, decide_eq_true_eq, decide_eq_true_eq]; rfl

theorem payloadWellSized_eq_false_iff (payload : List Byte) :
    payloadWellSized payload = false ↔ ¬ (20 ≤ payload.length ∧ (payload.length - 20) % 64 = 0) := by
  rw [← payloadWellSized_iff]; simp

theorem bitcount_eq (len : Counter) : bitcount len = BitVec.ofNat 64 (len.toNat * 8) := by
  apply BitVec.eq_of_toNat_eq; simp [bitcount]

/-! ### Big-endian reads of big-endian writes -/

theorem byteAt_append_right (p q : List Byte) (i : Nat) : byteAt (p ++ q) (p.length + i) = byteAt q i := by
  simp only [byteAt, List.getD_eq_getElem?_getD]
  rw [List.getElem?_append_right (Nat.le_add_right _ _), Nat.add_sub_cancel_left]

theorem be32At_append_right (p q : List Byte) (addr : Nat) :
    be32At (p ++ q) (p.length + addr) = be32At q addr := by
  simp only [be32At, Nat.add_assoc, byteAt_append_right]

/-- `be32` reads back what `bytes32` wrote. -/
theorem be32At_bytes32 (v : Word) (more : List Byte) : be32At (bytes32 v ++ more) 0 = v := by
  apply BitVec.eq_of_toNat_eq
  have := v.isLt
  simp only [be32At, byteAt, bytes32, List.cons_append, List.nil_append, List.getD_cons_zero,
    List.getD_cons_succ, Nat.zero_add, BitVec.extractLsb'_toNat, BitVec.toNat_ofNat, Nat.shiftRight_eq_div_pow]
  omega

/-! ### Rotates -/

/-- `ROTL` is the library's rotate for the amounts of the rules. -/
theorem rotl_eq_rotateLeft {n : Nat} (h : n < 32) (x : Word) : rotl n x = x.rotateLeft n := by
  rw [BitVec.rotateLeft_def, Nat.mod_eq_of_lt h]; rfl

/-! ### The words of the working storage -/

theorem Scratch.word_of_lt {sc : Scratch} {i : Nat} (h : i < 80) : sc.word i = sc.w[i] := by
  simp [Scratch.word, h]

@[simp] theorem Scratch.word_setWord_self {sc : Scratch} {i : Nat} (h : i < 80) (v : Word) :
    (sc.setWord i v).word i = v := by
  simp [Scratch.word, h]

@[simp] theorem Scratch.word_setWord_ne {sc : Scratch} {i j : Nat} (h : j ≠ i) (v : Word) :
    (sc.setWord i v).word j = sc.word j := by
  by_cases hj : j < 80
  · simp [Scratch.word, hj, Ne.symm h]
  · simp [Scratch.word, hj]

/-- Two working storages with the same words have the same schedule. -/
theorem Scratch.w_ext {sc sc' : Scratch} (h : ∀ i, i < 80 → sc.word i = sc'.word i) : sc.w = sc'.w := by
  ext i hi
  have := h i hi
  rw [Scratch.word_of_lt hi, Scratch.word_of_lt hi] at this
  rw [this]

end Sys2Proof.Machine
end

