-- ==== Sys2Proof/Laws/Compress.lean ====
section
/-! SUPPORT. What the steps of a block compression leave alone, the selectors' choice, and how whole blocks
compose. -/

namespace Sys2Proof.Machine

/-! ### Selectors -/

theorem scheduleStep_of_lt {t : Nat} (h : t < 16) (sc : Scratch) : sc.scheduleStep t = sc.loadw t := by
  simp [Scratch.scheduleStep, scheduleSelector, h]

theorem scheduleStep_of_ge {t : Nat} (h : 16 ≤ t) (sc : Scratch) : sc.scheduleStep t = sc.sched t := by
  simp [Scratch.scheduleStep, scheduleSelector, Nat.not_lt.mpr h]

theorem phaseSelector_toNat {t : Nat} (h : t < 80) : (phaseSelector t).toNat = t / 20 := by
  simp only [phaseSelector, Config.phaseRounds, BitVec.toNat_ofNat]; omega

theorem phaseSelector_eq {t p : Nat} (h : t / 20 = p) : phaseSelector t = BitVec.ofNat 2 p := by
  simp [phaseSelector, Config.phaseRounds, h]

theorem roundStep_phase0 {t : Nat} (h : t < 20) (sc : Scratch) : sc.roundStep t = sc.roundCh t := by
  simp [Scratch.roundStep, phaseSelector_eq (show t / 20 = 0 by omega)]

theorem roundStep_phase1 {t : Nat} (h : 20 ≤ t) (h' : t < 40) (sc : Scratch) :
    sc.roundStep t = sc.roundPar1 t := by
  simp [Scratch.roundStep, phaseSelector_eq (show t / 20 = 1 by omega)]

theorem roundStep_phase2 {t : Nat} (h : 40 ≤ t) (h' : t < 60) (sc : Scratch) :
    sc.roundStep t = sc.roundMaj t := by
  simp [Scratch.roundStep, phaseSelector_eq (show t / 20 = 2 by omega)]

theorem roundStep_phase3 {t : Nat} (h : 60 ≤ t) (h' : t < 80) (sc : Scratch) :
    sc.roundStep t = sc.roundPar2 t := by
  simp [Scratch.roundStep, phaseSelector_eq (show t / 20 = 3 by omega)]

/-! ### What the steps leave alone -/

/-- A schedule step writes word `t` and nothing else. -/
theorem scheduleStep_frame (sc : Scratch) (t : Nat) :
    ∃ v, sc.scheduleStep t = sc.setWord t v := by
  unfold Scratch.scheduleStep Scratch.loadw Scratch.sched
  split <;> exact ⟨_, rfl⟩

/-- A round writes the working variables and nothing else. -/
theorem roundStep_frame (sc : Scratch) (t : Nat) :
    ∃ v, sc.roundStep t = { sc with vars := v } := by
  unfold Scratch.roundStep
  split
  · exact ⟨_, by rw [Scratch.roundCh]⟩
  · split
    · exact ⟨_, by rw [Scratch.roundPar1]⟩
    · split
      · exact ⟨_, by rw [Scratch.roundMaj]⟩
      · exact ⟨_, by rw [Scratch.roundPar2]⟩

/-- A sequence of schedule steps keeps every field but the words. -/
theorem foldl_scheduleStep_frame (ts : List Nat) (sc : Scratch) :
    ∃ w, ts.foldl Scratch.scheduleStep sc = { sc with w := w } := by
  induction ts generalizing sc with
  | nil => exact ⟨sc.w, rfl⟩
  | cons t ts ih =>
    obtain ⟨v, hv⟩ := scheduleStep_frame sc t
    obtain ⟨w, hw⟩ := ih (sc.scheduleStep t)
    exact ⟨w, by rw [List.foldl_cons, hw, hv]; rfl⟩

/-- A sequence of rounds keeps every field but the working variables. -/
theorem foldl_roundStep_frame (ts : List Nat) (sc : Scratch) :
    ∃ v, ts.foldl Scratch.roundStep sc = { sc with vars := v } := by
  induction ts generalizing sc with
  | nil => exact ⟨sc.vars, rfl⟩
  | cons t ts ih =>
    obtain ⟨v, hv⟩ := roundStep_frame sc t
    obtain ⟨v', hv'⟩ := ih (sc.roundStep t)
    exact ⟨v', by rw [List.foldl_cons, hv', hv]⟩

/-! ### Whole blocks -/

@[simp] theorem compressN_zero (s : Chain) (bytes : List Byte) : compressN 0 s bytes = s := rfl

theorem compressN_succ (k : Nat) (s : Chain) (bytes : List Byte) :
    compressN (k + 1) s bytes = compressN k (compressBlock s (bytes.take 64)) (bytes.drop 64) := rfl

@[simp] theorem compressBlocks_nil (s : Chain) : compressBlocks s [] = s := rfl

/-- Only the first `64 * k` bytes matter to `k` blocks. -/
theorem compressN_append (k : Nat) (s : Chain) (x y : List Byte) (h : 64 * k ≤ x.length) :
    compressN k s (x ++ y) = compressN k s x := by
  induction k generalizing s x with
  | zero => rfl
  | succ k ih =>
    rw [compressN_succ, compressN_succ, List.take_append_of_le_length (by omega),
      List.drop_append_of_le_length (by omega), ih]
    simp only [List.length_drop]; omega

/-- `j + k` blocks are `j` blocks, then `k` more. -/
theorem compressN_add (j k : Nat) (s : Chain) (x : List Byte) :
    compressN (j + k) s x = compressN k (compressN j s x) (x.drop (64 * j)) := by
  induction j generalizing s x with
  | zero => simp
  | succ j ih =>
    rw [show j + 1 + k = (j + k) + 1 by omega, compressN_succ, compressN_succ, ih, List.drop_drop]
    congr 2
    omega

/-- One block. -/
theorem compressBlocks_one (s : Chain) {blk : List Byte} (h : blk.length = 64) :
    compressBlocks s blk = compressBlock s blk := by
  have ht : blk.take 64 = blk := by rw [List.take_of_length_le (by omega)]
  simp [compressBlocks, Config.blockBytes, h, compressN_succ, ht]

/-- Whole blocks, then more bytes: the second part continues from the first part's state. -/
theorem compressBlocks_append (s : Chain) (x y : List Byte) (h : x.length % 64 = 0) :
    compressBlocks s (x ++ y) = compressBlocks (compressBlocks s x) y := by
  have hx : 64 * (x.length / 64) = x.length := by omega
  unfold compressBlocks
  simp only [Config.blockBytes, List.length_append]
  rw [show (x.length + y.length) / 64 = x.length / 64 + y.length / 64 by omega, compressN_add,
    compressN_append _ _ _ _ (by omega), hx, List.drop_left]

/-- The compression of a block whose steps are spelled out in working storage of its own. -/
theorem compressBlock_eq (s : Chain) (blk : List Byte) :
    compressBlock s blk = (Scratch.start s blk).compress.out := rfl

end Sys2Proof.Machine
end

