-- ==== Sys2Proof/Laws/Ops.lean ====
section
/-! SUPPORT. Everything each instruction and each step can do, said once: what holds when it answers a next
state. -/

namespace Sys2Proof.Machine

/-! ### The shared checks -/

/-- A guarded command that answers: either the engine was faulted and it raised, or the guarded part
answered. -/
theorem unlessFaulted_next {s t : State} {run : Host.Outcome State Fault Refusal}
    (h : s.unlessFaulted run = .next t) :
    (s.faulted = true ∧ t = s.raise .errFaulted) ∨ (s.faulted = false ∧ run = .next t) := by
  unfold State.unlessFaulted at h
  split at h
  · next hf => exact .inl ⟨hf, by injection h with h; exact h.symm⟩
  · next hf => exact .inr ⟨by simpa using hf, h⟩

theorem unlessFaulted_of_ready {s : State} (h : s.faulted = false)
    (run : Host.Outcome State Fault Refusal) : s.unlessFaulted run = run := by
  simp [State.unlessFaulted, h]

theorem unlessFaulted_of_faulted {s : State} (h : s.faulted = true)
    (run : Host.Outcome State Fault Refusal) : s.unlessFaulted run = .next (s.raise .errFaulted) := by
  simp [State.unlessFaulted, h]

@[simp] theorem faultedAfter_errState (b : Bool) : faultedAfter .errState b = b := rfl
@[simp] theorem faultedAfter_errIllegalCmd (b : Bool) : faultedAfter .errIllegalCmd b = b := rfl
@[simp] theorem faultedAfter_errFaulted (b : Bool) : faultedAfter .errFaulted b = b := rfl
@[simp] theorem faultedAfter_ok (b : Bool) : faultedAfter .ok b = b := rfl
@[simp] theorem faultedAfter_faultBlocklen (b : Bool) : faultedAfter .faultBlocklen b = true := rfl

/-! ### What each command can do -/

theorem execInit_next {s t : State} (h : execInit s = .next t) :
    (s.faulted = true ∧ t = s.raise .errFaulted) ∨
      (s.faulted = false ∧ t = s.freshContext.respond .ok []) := by
  rcases unlessFaulted_next h with h | ⟨hf, h⟩
  · exact .inl h
  · exact .inr ⟨hf, by injection h with h; exact h.symm⟩

theorem execUpdate_next {data : List Byte} {s t : State} (h : execUpdate data s = .next t) :
    (s.faulted = true ∧ t = s.raise .errFaulted) ∨
      (s.faulted = false ∧ s.phase = .finalized ∧ t = s.raise .errState) ∨
      (s.faulted = false ∧ s.phase ≠ .finalized ∧ t = (s.absorb data).respond .ok []) := by
  rcases unlessFaulted_next h with h | ⟨hf, h⟩
  · exact .inl h
  · split at h <;> rename_i hp <;> injection h with h
    · exact .inr (.inl ⟨hf, hp, h.symm⟩)
    · exact .inr (.inr ⟨hf, hp, h.symm⟩)

theorem execFinalize_next {s t : State} (h : execFinalize s = .next t) :
    (s.faulted = true ∧ t = s.raise .errFaulted) ∨
      (s.faulted = false ∧ s.phase = .finalized ∧ t = s.raise .errState) ∨
      (s.faulted = false ∧ s.phase ≠ .finalized ∧
        t = s.close.respond .ok (chainBytes s.close.h)) := by
  rcases unlessFaulted_next h with h | ⟨hf, h⟩
  · exact .inl h
  · split at h <;> rename_i hp <;> injection h with h
    · exact .inr (.inl ⟨hf, hp, h.symm⟩)
    · exact .inr (.inr ⟨hf, hp, h.symm⟩)

theorem execCompress_next {payload : List Byte} {s t : State} (h : execCompress payload s = .next t) :
    (s.faulted = true ∧ t = s.raise .errFaulted) ∨
      (s.faulted = false ∧ payloadWellSized payload = false ∧ t = s.raise .faultBlocklen) ∨
      (s.faulted = false ∧ payloadWellSized payload = true ∧
        t = s.respond .ok
          (chainBytes (compressBlocks (stateOperand payload) (blocksOperand payload)))) := by
  rcases unlessFaulted_next h with h | ⟨hf, h⟩
  · exact .inl h
  · split at h <;> rename_i hp <;> injection h with h
    · exact .inr (.inr ⟨hf, hp, h.symm⟩)
    · exact .inr (.inl ⟨hf, by simpa using hp, h.symm⟩)

theorem rejectCommand_next {s t : State} (h : s.rejectCommand = .next t) :
    (s.faulted = true ∧ t = s.raise .errFaulted) ∨ (s.faulted = false ∧ t = s.raise .errIllegalCmd) := by
  rcases unlessFaulted_next h with h | ⟨hf, h⟩
  · exact .inl h
  · exact .inr ⟨hf, by injection h with h; exact h.symm⟩

/-! ### What the decoder can read from the command space -/

theorem decodeCommand_ok {op : Byte} {payload : List Byte} {i : Instr}
    (h : decode (.command op payload) = .ok i) :
    (op = 0x00#8 ∧ payload = [] ∧ i = .init) ∨ (op = 0x01#8 ∧ i = .update payload) ∨
      (op = 0x02#8 ∧ payload = [] ∧ i = .finalize) ∨ (op = 0x03#8 ∧ i = .compress payload) := by
  simp only [decode, decodeCommand] at h
  split at h <;> rename_i h0
  · split at h <;> rename_i hp
    · injection h with h; exact .inl ⟨h0, by simpa using hp, h.symm⟩
    · cases h
  · split at h <;> rename_i h1
    · injection h with h; exact .inr (.inl ⟨h1, h.symm⟩)
    · split at h <;> rename_i h2
      · split at h <;> rename_i hp
        · injection h with h; exact .inr (.inr (.inl ⟨h2, by simpa using hp, h.symm⟩))
        · cases h
      · split at h <;> rename_i h3
        · injection h with h; exact .inr (.inr (.inr ⟨h3, h.symm⟩))
        · cases h

/-! ### What a step can do -/

/-- Every way a step answers a next state. -/
theorem step_cases {s t : State} (h : step s = .next t) :
    (s.host = [] ∧ t = s) ∨
    (∃ c rest, s.host = .reset c :: rest ∧ t = (s.withHost rest).hostReset) ∨
    (∃ op payload rest r, s.host = .command op payload :: rest ∧
      decode (.command op payload) = .error r ∧ (s.withHost rest).rejectCommand = .next t) ∨
    (∃ rest, s.host = .command 0x00#8 [] :: rest ∧ execInit (s.withHost rest) = .next t) ∨
    (∃ data rest, s.host = .command 0x01#8 data :: rest ∧ execUpdate data (s.withHost rest) = .next t) ∨
    (∃ rest, s.host = .command 0x02#8 [] :: rest ∧ execFinalize (s.withHost rest) = .next t) ∨
    (∃ payload rest, s.host = .command 0x03#8 payload :: rest ∧
      execCompress payload (s.withHost rest) = .next t) := by
  unfold step at h
  split at h
  · next hh => exact .inl ⟨hh, by injection h with h; exact h.symm⟩
  · next op payload rest hh =>
    split at h
    · next i hd =>
      rcases decodeCommand_ok hd with ⟨rfl, rfl, rfl⟩ | ⟨rfl, rfl⟩ | ⟨rfl, rfl, rfl⟩ | ⟨rfl, rfl⟩
      · exact .inr (.inr (.inr (.inl ⟨rest, hh, h⟩)))
      · exact .inr (.inr (.inr (.inr (.inl ⟨payload, rest, hh, h⟩))))
      · exact .inr (.inr (.inr (.inr (.inr (.inl ⟨rest, hh, h⟩)))))
      · exact .inr (.inr (.inr (.inr (.inr (.inr ⟨payload, rest, hh, h⟩)))))
    · next r hd => exact .inr (.inr (.inl ⟨op, payload, rest, r, hh, hd, h⟩))
  · next c rest hh => exact .inr (.inl ⟨c, rest, hh, by injection h with h; exact h.symm⟩)
  · cases h

end Sys2Proof.Machine
end

