-- ==== Sys2Proof/Laws/Run.lean ====
section
/-! SUPPORT. Runs of several steps and sequences of instructions, one step at a time; what an accepted command
answers, as an equation. -/

namespace Sys2Proof.Machine

/-! ### Runs of the machine -/

theorem run_zero (s : State) : Host.Core.run core 0 s = .next s := rfl

/-- A run whose first step answers goes on from there. -/
theorem run_succ {s t : State} (h : step s = .next t) (k : Nat) :
    Host.Core.run core (k + 1) s = Host.Core.run core k t := by
  have h' : core.step s = .next t := h
  simp only [Host.Core.run, h']

/-- A run that answers took a first step that answered. -/
theorem run_succ_next {s t : State} {k : Nat} (h : Host.Core.run core (k + 1) s = .next t) :
    ∃ u : State, step s = .next u ∧ Host.Core.run core k u = .next t := by
  cases hs : step s with
  | next u => exact ⟨u, rfl, by rw [← run_succ hs]; exact h⟩
  | fault r =>
    have h' : core.step s = .fault r := hs
    simp only [Host.Core.run, h', reduceCtorEq] at h
  | refused r =>
    have h' : core.step s = .refused r := hs
    simp only [Host.Core.run, h', reduceCtorEq] at h

/-! ### Sequences of instructions -/

/-- A sequence in two parts. -/
theorem execAll_append {l l' : List Instr} {s t : State} (h : execAll l s = .next t) :
    execAll (l ++ l') s = execAll l' t := by
  induction l generalizing s with
  | nil => injection h with h; subst h; rfl
  | cons i l ih =>
    simp only [List.cons_append, execAll] at h ⊢
    split at h
    · next u hu => simp only [ih h]
    · cases h
    · cases h

/-- A sequence of steps that each rewrite the working storage. -/
theorem execAll_map {f : Nat → Instr} {g : Scratch → Nat → Scratch} {l : List Nat}
    (h : ∀ s t, t ∈ l → exec (f t) s = .next (s.withScratch (g s.scratch t))) (s : State) :
    execAll (l.map f) s = .next (s.withScratch (l.foldl g s.scratch)) := by
  induction l generalizing s with
  | nil => rfl
  | cons t l ih =>
    simp only [List.map_cons, execAll, h s t (List.mem_cons_self ..)]
    rw [ih (fun s t ht => h s t (List.mem_cons_of_mem _ ht))]
    rfl

/-! ### Accepted commands -/

theorem exec_init_of_ready {s : State} (h : s.faulted = false) :
    exec .init s = .next (s.freshContext.respond .ok []) := unlessFaulted_of_ready h _

theorem exec_update_of_accepting {s : State} (h : s.Accepting) (data : List Byte) :
    exec (.update data) s = .next ((s.absorb data).respond .ok []) := by
  simp only [exec, execUpdate]
  rw [unlessFaulted_of_ready h.1, if_neg h.2]

theorem exec_finalize_of_accepting {s : State} (h : s.Accepting) :
    exec .finalize s = .next (s.close.respond .ok (chainBytes s.close.h)) := by
  simp only [exec, execFinalize]
  rw [unlessFaulted_of_ready h.1, if_neg h.2]

theorem exec_compress_of_wellSized {s : State} (h : s.faulted = false) {payload : List Byte}
    (hw : payloadWellSized payload = true) :
    exec (.compress payload) s = .next (s.respond .ok
      (chainBytes (compressBlocks (stateOperand payload) (blocksOperand payload)))) := by
  simp only [exec, execCompress]
  rw [unlessFaulted_of_ready h, if_pos hw]

theorem exec_compress_of_malformed {s : State} (h : s.faulted = false) {payload : List Byte}
    (hw : payloadWellSized payload = false) :
    exec (.compress payload) s = .next (s.raise .faultBlocklen) := by
  simp only [exec, execCompress]
  rw [unlessFaulted_of_ready h, hw]; rfl

end Sys2Proof.Machine
end

