-- ==== Sys2Proof/Laws/PerInstr.lean ====
section
/-! SUPPORT. The family `EncodedSpace`: in which space of the opcode table an instruction's code lies. One
lemma per constructor. -/

namespace Sys2Proof.Laws.EncodedSpace

/-- The code of an instruction is in the command space exactly when it is a host command. -/
def Statement (i : Instr) : Prop := (∃ op payload, encode i = .command op payload) ↔ i.isCommand = true

theorem init : Statement .init := by simp [Statement, encode, Instr.isCommand]
theorem update (data : List Byte) : Statement (.update data) := by
  simp [Statement, encode, Instr.isCommand]
theorem finalize : Statement .finalize := by simp [Statement, encode, Instr.isCommand]
theorem compress (payload : List Byte) : Statement (.compress payload) := by
  simp [Statement, encode, Instr.isCommand]
theorem loadw (t : Nat) : Statement (.loadw t) := by simp [Statement, encode, Instr.isCommand]
theorem sched (t : Nat) : Statement (.sched t) := by simp [Statement, encode, Instr.isCommand]
theorem initv : Statement .initv := by simp [Statement, encode, Instr.isCommand]
theorem roundCh (t : Nat) : Statement (.roundCh t) := by simp [Statement, encode, Instr.isCommand]
theorem roundPar1 (t : Nat) : Statement (.roundPar1 t) := by simp [Statement, encode, Instr.isCommand]
theorem roundMaj (t : Nat) : Statement (.roundMaj t) := by simp [Statement, encode, Instr.isCommand]
theorem roundPar2 (t : Nat) : Statement (.roundPar2 t) := by simp [Statement, encode, Instr.isCommand]
theorem feedfwd : Statement .feedfwd := by simp [Statement, encode, Instr.isCommand]
theorem pad1 : Statement .pad1 := by simp [Statement, encode, Instr.isCommand]
theorem pad2 : Statement .pad2 := by simp [Statement, encode, Instr.isCommand]

end Sys2Proof.Laws.EncodedSpace
end

