-- ==== Sys2Proof/Tests/Slice0.lean ====
section
/-! SUPPORT. The model's own tests: ill-formed terms, decoding of words written out from the spec's encodings,
the spec's vectors (spec/95_test_vectors.md), and a witness for the hypotheses of each statement. -/

namespace Sys2Proof.Tests

open Sys2Proof.Machine

/-! ### Ill-formed terms are refused -/

theorem test_wf_loadw : (Instr.loadw 15).wf = true ∧ (Instr.loadw 16).wf = false := by decide
theorem test_wf_sched_low : (Instr.sched 16).wf = true ∧ (Instr.sched 15).wf = false := by decide
theorem test_wf_sched_high : (Instr.sched 79).wf = true ∧ (Instr.sched 80).wf = false := by decide
theorem test_wf_roundCh : (Instr.roundCh 19).wf = true ∧ (Instr.roundCh 20).wf = false := by decide
theorem test_wf_roundPar1 : (Instr.roundPar1 19).wf = false ∧ (Instr.roundPar1 40).wf = false := by decide
theorem test_wf_roundMaj : (Instr.roundMaj 39).wf = false ∧ (Instr.roundMaj 60).wf = false := by decide
theorem test_wf_roundPar2 : (Instr.roundPar2 59).wf = false ∧ (Instr.roundPar2 80).wf = false := by decide

/-! ### Decoding: codes written out bit by bit (30_encoding.md R71, R72, R80, R81, R83) -/

theorem test_decode_init : decodeBytes [0b00000000#8] = .ok .init := by decide
theorem test_decode_update :
    decodeBytes [0b00000001#8, 0x61#8, 0x62#8] = .ok (.update [0x61#8, 0x62#8]) := by decide
theorem test_decode_finalize : decodeBytes [0b00000010#8] = .ok .finalize := by decide
theorem test_decode_compress :
    decodeBytes (0b00000011#8 :: List.replicate 84 0#8) = .ok (.compress (List.replicate 84 0#8)) := by decide
theorem test_decode_loadw : decode (.schedule 0b0#1 15) = .ok (.loadw 15) := by decide
theorem test_decode_sched : decode (.schedule 0b1#1 16) = .ok (.sched 16) := by decide
theorem test_decode_initv : decode .initv = .ok .initv := by decide
theorem test_decode_roundCh : decode (.round 0b00#2 19) = .ok (.roundCh 19) := by decide
theorem test_decode_roundPar1 : decode (.round 0b01#2 20) = .ok (.roundPar1 20) := by decide
theorem test_decode_roundMaj : decode (.round 0b10#2 59) = .ok (.roundMaj 59) := by decide
theorem test_decode_roundPar2 : decode (.round 0b11#2 60) = .ok (.roundPar2 60) := by decide
theorem test_decode_feedfwd : decode .feedfwd = .ok .feedfwd := by decide
theorem test_decode_pad1 : decode (.padding 0b0#1) = .ok .pad1 := by decide
theorem test_decode_pad2 : decode (.padding 0b1#1) = .ok .pad2 := by decide
theorem test_decode_reserved :
    decodeBytes [0x7F#8] = .error .reservedCode ∧ decodeBytes [0x04#8, 0x00#8] = .error .reservedCode ∧
      decodeBytes [] = .error .noCode := by decide
theorem test_decode_payload_on_n :
    decodeBytes [0x02#8, 0x00#8] = .error .payloadOnFormatN ∧
      decodeBytes [0x00#8, 0x01#8] = .error .payloadOnFormatN := by decide
theorem test_decode_wrong_selector :
    decode (.schedule 1#1 15) = .error .scheduleSelector ∧ decode (.round 1#2 19) = .error .phaseSelector := by
  decide
theorem test_table_words :
    decodeTableWord 8 0 = some .init ∧ decodeTableWord 8 1 = some (.update []) ∧
      decodeTableWord 8 2 = some .finalize ∧
      decodeTableWord 8 3 = some (.compress (List.replicate 20 0#8)) ∧
      decodeTableWord 16 0x6101 = some (.update [0x61#8]) ∧ decodeTableWord 8 4 = none := by decide
theorem test_fetch_word :
    step (State.reset.withFetchWord 8 0x01) = exec (.update []) State.reset := rfl

/-! ### Primitives (95_test_vectors.md section 2.1) -/

theorem test_rotl : rotl 1 0x80000001#32 = 0x00000003#32 ∧ rotl 5 0x67452301#32 = 0xE8A4602C#32 ∧
    rotl 30 0x12345678#32 = 0x048D159E#32 := by decide
theorem test_functions :
    fCh 0xF0F0F0F0#32 0xCCCCCCCC#32 0xAAAAAAAA#32 = 0xCACACACA#32 ∧
      fParity 0xF0F0F0F0#32 0xCCCCCCCC#32 0xAAAAAAAA#32 = 0x96969696#32 ∧
      fMaj 0xF0F0F0F0#32 0xCCCCCCCC#32 0xAAAAAAAA#32 = 0xE8E8E8E8#32 := by decide
theorem test_bitcount :
    bytes64 (bitcount 3#64) = [0x00#8, 0x00#8, 0x00#8, 0x00#8, 0x00#8, 0x00#8, 0x00#8, 0x18#8] ∧
      bitcount 0xFFFFFFFFFFFFFFFF#64 = 0xFFFFFFFFFFFFFFF8#64 ∧ bitcount 0x2000000000000003#64 = 24#64 := by
  decide
theorem test_codes : (Response.mk .errFaulted []).bytes = [0x04#8] ∧ Phase.finalized.field = 2#2 := by decide

/-! ### The schedule and the rounds of `CompressBlock(IV, B_abc)` (95_test_vectors.md sections 2.2 and 2.3) -/

/-- `B_abc`. -/
def blockAbc : List Byte := [0x61#8, 0x62#8, 0x63#8, 0x80#8] ++ List.replicate 59 0x00#8 ++ [0x18#8]

def tableW0 : List Word :=
  [0x61626380#32, 0x00000000#32, 0x00000000#32, 0x00000000#32, 0x00000000#32,
    0x00000000#32, 0x00000000#32, 0x00000000#32, 0x00000000#32, 0x00000000#32,
    0x00000000#32, 0x00000000#32, 0x00000000#32, 0x00000000#32, 0x00000000#32,
    0x00000018#32, 0xC2C4C700#32, 0x00000000#32, 0x00000030#32, 0x85898E01#32]

def tableW1 : List Word :=
  [0x00000000#32, 0x00000060#32, 0x0B131C03#32, 0x00000030#32, 0x85898EC1#32,
    0x16263806#32, 0x00000000#32, 0x00000180#32, 0x2C4C700C#32, 0x000000F0#32,
    0x93AFB507#32, 0x5898E048#32, 0x8E9A9202#32, 0x00000600#32, 0xB131C0F0#32,
    0x16263BC6#32, 0x4EBED41E#32, 0x626380A1#32, 0x16263806#32, 0x000018C0#32]

def tableW2 : List Word :=
  [0xD2E138C4#32, 0x00000F00#32, 0x3AFB5079#32, 0x898E04E5#32, 0xE2BA3C2B#32,
    0x000060C0#32, 0x053A37CD#32, 0x74458547#32, 0xDA9415ED#32, 0x26380A16#32,
    0x626383A1#32, 0x4EBF54DE#32, 0x3835B44B#32, 0x0000F600#32, 0x1E84C7A3#32,
    0x98E04D98#32, 0x651D16A0#32, 0x62658CA1#32, 0x458544D6#32, 0x44584CB7#32]

def tableW3 : List Word :=
  [0x7BA06619#32, 0x6380AEA2#32, 0x0AE55269#32, 0x627B49A1#32, 0x7CD45C9D#32,
    0x000F0000#32, 0xFB50753A#32, 0xEC6765E8#32, 0xBA3C2BE2#32, 0x0060C000#32,
    0x3A37CD05#32, 0x458546F4#32, 0xB8599DD6#32, 0x380A1A26#32, 0x01E02203#32,
    0xE7CC3456#32, 0xE6E60B69#32, 0x00F60A00#32, 0x5795EF4F#32, 0x822E0879#32]

def tableV0 : List Chain :=
  [⟨0x0116FC33#32, 0x67452301#32, 0x7BF36AE2#32, 0x98BADCFE#32, 0x10325476#32⟩,
    ⟨0x8990536D#32, 0x0116FC33#32, 0x59D148C0#32, 0x7BF36AE2#32, 0x98BADCFE#32⟩,
    ⟨0xA1390F08#32, 0x8990536D#32, 0xC045BF0C#32, 0x59D148C0#32, 0x7BF36AE2#32⟩,
    ⟨0xCDD8E11B#32, 0xA1390F08#32, 0x626414DB#32, 0xC045BF0C#32, 0x59D148C0#32⟩,
    ⟨0xCFD499DE#32, 0xCDD8E11B#32, 0x284E43C2#32, 0x626414DB#32, 0xC045BF0C#32⟩,
    ⟨0x3FC7CA40#32, 0xCFD499DE#32, 0xF3763846#32, 0x284E43C2#32, 0x626414DB#32⟩,
    ⟨0x993E30C1#32, 0x3FC7CA40#32, 0xB3F52677#32, 0xF3763846#32, 0x284E43C2#32⟩,
    ⟨0x9E8C07D4#32, 0x993E30C1#32, 0x0FF1F290#32, 0xB3F52677#32, 0xF3763846#32⟩,
    ⟨0x4B6AE328#32, 0x9E8C07D4#32, 0x664F8C30#32, 0x0FF1F290#32, 0xB3F52677#32⟩,
    ⟨0x8351F929#32, 0x4B6AE328#32, 0x27A301F5#32, 0x664F8C30#32, 0x0FF1F290#32⟩,
    ⟨0xFBDA9E89#32, 0x8351F929#32, 0x12DAB8CA#32, 0x27A301F5#32, 0x664F8C30#32⟩,
    ⟨0x63188FE4#32, 0xFBDA9E89#32, 0x60D47E4A#32, 0x12DAB8CA#32, 0x27A301F5#32⟩,
    ⟨0x4607B664#32, 0x63188FE4#32, 0x7EF6A7A2#32, 0x60D47E4A#32, 0x12DAB8CA#32⟩,
    ⟨0x9128F695#32, 0x4607B664#32, 0x18C623F9#32, 0x7EF6A7A2#32, 0x60D47E4A#32⟩,
    ⟨0x196BEE77#32, 0x9128F695#32, 0x1181ED99#32, 0x18C623F9#32, 0x7EF6A7A2#32⟩,
    ⟨0x20BDD62F#32, 0x196BEE77#32, 0x644A3DA5#32, 0x1181ED99#32, 0x18C623F9#32⟩,
    ⟨0x4E925823#32, 0x20BDD62F#32, 0xC65AFB9D#32, 0x644A3DA5#32, 0x1181ED99#32⟩,
    ⟨0x82AA6728#32, 0x4E925823#32, 0xC82F758B#32, 0xC65AFB9D#32, 0x644A3DA5#32⟩,
    ⟨0xDC64901D#32, 0x82AA6728#32, 0xD3A49608#32, 0xC82F758B#32, 0xC65AFB9D#32⟩,
    ⟨0xFD9E1D7D#32, 0xDC64901D#32, 0x20AA99CA#32, 0xD3A49608#32, 0xC82F758B#32⟩]

def tableV1 : List Chain :=
  [⟨0x1A37B0CA#32, 0xFD9E1D7D#32, 0x77192407#32, 0x20AA99CA#32, 0xD3A49608#32⟩,
    ⟨0x33A23BFC#32, 0x1A37B0CA#32, 0x7F67875F#32, 0x77192407#32, 0x20AA99CA#32⟩,
    ⟨0x21283486#32, 0x33A23BFC#32, 0x868DEC32#32, 0x7F67875F#32, 0x77192407#32⟩,
    ⟨0xD541F12D#32, 0x21283486#32, 0x0CE88EFF#32, 0x868DEC32#32, 0x7F67875F#32⟩,
    ⟨0xC7567DC6#32, 0xD541F12D#32, 0x884A0D21#32, 0x0CE88EFF#32, 0x868DEC32#32⟩,
    ⟨0x48413BA4#32, 0xC7567DC6#32, 0x75507C4B#32, 0x884A0D21#32, 0x0CE88EFF#32⟩,
    ⟨0xBE35FBD5#32, 0x48413BA4#32, 0xB1D59F71#32, 0x75507C4B#32, 0x884A0D21#32⟩,
    ⟨0x4AA84D97#32, 0xBE35FBD5#32, 0x12104EE9#32, 0xB1D59F71#32, 0x75507C4B#32⟩,
    ⟨0x8370B52E#32, 0x4AA84D97#32, 0x6F8D7EF5#32, 0x12104EE9#32, 0xB1D59F71#32⟩,
    ⟨0xC5FBAF5D#32, 0x8370B52E#32, 0xD2AA1365#32, 0x6F8D7EF5#32, 0x12104EE9#32⟩,
    ⟨0x1267B407#32, 0xC5FBAF5D#32, 0xA0DC2D4B#32, 0xD2AA1365#32, 0x6F8D7EF5#32⟩,
    ⟨0x3B845D33#32, 0x1267B407#32, 0x717EEBD7#32, 0xA0DC2D4B#32, 0xD2AA1365#32⟩,
    ⟨0x046FAA0A#32, 0x3B845D33#32, 0xC499ED01#32, 0x717EEBD7#32, 0xA0DC2D4B#32⟩,
    ⟨0x2C0EBC11#32, 0x046FAA0A#32, 0xCEE1174C#32, 0xC499ED01#32, 0x717EEBD7#32⟩,
    ⟨0x21796AD4#32, 0x2C0EBC11#32, 0x811BEA82#32, 0xCEE1174C#32, 0xC499ED01#32⟩,
    ⟨0xDCBBB0CB#32, 0x21796AD4#32, 0x4B03AF04#32, 0x811BEA82#32, 0xCEE1174C#32⟩,
    ⟨0x0F511FD8#32, 0xDCBBB0CB#32, 0x085E5AB5#32, 0x4B03AF04#32, 0x811BEA82#32⟩,
    ⟨0xDC63973F#32, 0x0F511FD8#32, 0xF72EEC32#32, 0x085E5AB5#32, 0x4B03AF04#32⟩,
    ⟨0x4C986405#32, 0xDC63973F#32, 0x03D447F6#32, 0xF72EEC32#32, 0x085E5AB5#32⟩,
    ⟨0x32DE1CBA#32, 0x4C986405#32, 0xF718E5CF#32, 0x03D447F6#32, 0xF72EEC32#32⟩]

def tableV2 : List Chain :=
  [⟨0xFC87DEDF#32, 0x32DE1CBA#32, 0x53261901#32, 0xF718E5CF#32, 0x03D447F6#32⟩,
    ⟨0x970A0D5C#32, 0xFC87DEDF#32, 0x8CB7872E#32, 0x53261901#32, 0xF718E5CF#32⟩,
    ⟨0x7F193DC5#32, 0x970A0D5C#32, 0xFF21F7B7#32, 0x8CB7872E#32, 0x53261901#32⟩,
    ⟨0xEE1B1AAF#32, 0x7F193DC5#32, 0x25C28357#32, 0xFF21F7B7#32, 0x8CB7872E#32⟩,
    ⟨0x40F28E09#32, 0xEE1B1AAF#32, 0x5FC64F71#32, 0x25C28357#32, 0xFF21F7B7#32⟩,
    ⟨0x1C51E1F2#32, 0x40F28E09#32, 0xFB86C6AB#32, 0x5FC64F71#32, 0x25C28357#32⟩,
    ⟨0xA01B846C#32, 0x1C51E1F2#32, 0x503CA382#32, 0xFB86C6AB#32, 0x5FC64F71#32⟩,
    ⟨0xBEAD02CA#32, 0xA01B846C#32, 0x8714787C#32, 0x503CA382#32, 0xFB86C6AB#32⟩,
    ⟨0xBAF39337#32, 0xBEAD02CA#32, 0x2806E11B#32, 0x8714787C#32, 0x503CA382#32⟩,
    ⟨0x120731C5#32, 0xBAF39337#32, 0xAFAB40B2#32, 0x2806E11B#32, 0x8714787C#32⟩,
    ⟨0x641DB2CE#32, 0x120731C5#32, 0xEEBCE4CD#32, 0xAFAB40B2#32, 0x2806E11B#32⟩,
    ⟨0x3847AD66#32, 0x641DB2CE#32, 0x4481CC71#32, 0xEEBCE4CD#32, 0xAFAB40B2#32⟩,
    ⟨0xE490436D#32, 0x3847AD66#32, 0x99076CB3#32, 0x4481CC71#32, 0xEEBCE4CD#32⟩,
    ⟨0x27E9F1D8#32, 0xE490436D#32, 0x8E11EB59#32, 0x99076CB3#32, 0x4481CC71#32⟩,
    ⟨0x7B71F76D#32, 0x27E9F1D8#32, 0x792410DB#32, 0x8E11EB59#32, 0x99076CB3#32⟩,
    ⟨0x5E6456AF#32, 0x7B71F76D#32, 0x09FA7C76#32, 0x792410DB#32, 0x8E11EB59#32⟩,
    ⟨0xC846093F#32, 0x5E6456AF#32, 0x5EDC7DDB#32, 0x09FA7C76#32, 0x792410DB#32⟩,
    ⟨0xD262FF50#32, 0xC846093F#32, 0xD79915AB#32, 0x5EDC7DDB#32, 0x09FA7C76#32⟩,
    ⟨0x09D785FD#32, 0xD262FF50#32, 0xF211824F#32, 0xD79915AB#32, 0x5EDC7DDB#32⟩,
    ⟨0x3F52DE5A#32, 0x09D785FD#32, 0x3498BFD4#32, 0xF211824F#32, 0xD79915AB#32⟩]

def tableV3 : List Chain :=
  [⟨0xD756C147#32, 0x3F52DE5A#32, 0x4275E17F#32, 0x3498BFD4#32, 0xF211824F#32⟩,
    ⟨0x548C9CB2#32, 0xD756C147#32, 0x8FD4B796#32, 0x4275E17F#32, 0x3498BFD4#32⟩,
    ⟨0xB66C020B#32, 0x548C9CB2#32, 0xF5D5B051#32, 0x8FD4B796#32, 0x4275E17F#32⟩,
    ⟨0x6B61C9E1#32, 0xB66C020B#32, 0x9523272C#32, 0xF5D5B051#32, 0x8FD4B796#32⟩,
    ⟨0x19DFA7AC#32, 0x6B61C9E1#32, 0xED9B0082#32, 0x9523272C#32, 0xF5D5B051#32⟩,
    ⟨0x101655F9#32, 0x19DFA7AC#32, 0x5AD87278#32, 0xED9B0082#32, 0x9523272C#32⟩,
    ⟨0x0C3DF2B4#32, 0x101655F9#32, 0x0677E9EB#32, 0x5AD87278#32, 0xED9B0082#32⟩,
    ⟨0x78DD4D2B#32, 0x0C3DF2B4#32, 0x4405957E#32, 0x0677E9EB#32, 0x5AD87278#32⟩,
    ⟨0x497093C0#32, 0x78DD4D2B#32, 0x030F7CAD#32, 0x4405957E#32, 0x0677E9EB#32⟩,
    ⟨0x3F2588C2#32, 0x497093C0#32, 0xDE37534A#32, 0x030F7CAD#32, 0x4405957E#32⟩,
    ⟨0xC199F8C7#32, 0x3F2588C2#32, 0x125C24F0#32, 0xDE37534A#32, 0x030F7CAD#32⟩,
    ⟨0x39859DE7#32, 0xC199F8C7#32, 0x8FC96230#32, 0x125C24F0#32, 0xDE37534A#32⟩,
    ⟨0xEDB42DE4#32, 0x39859DE7#32, 0xF0667E31#32, 0x8FC96230#32, 0x125C24F0#32⟩,
    ⟨0x11793F6F#32, 0xEDB42DE4#32, 0xCE616779#32, 0xF0667E31#32, 0x8FC96230#32⟩,
    ⟨0x5EE76897#32, 0x11793F6F#32, 0x3B6D0B79#32, 0xCE616779#32, 0xF0667E31#32⟩,
    ⟨0x63F7DAB7#32, 0x5EE76897#32, 0xC45E4FDB#32, 0x3B6D0B79#32, 0xCE616779#32⟩,
    ⟨0xA079B7D9#32, 0x63F7DAB7#32, 0xD7B9DA25#32, 0xC45E4FDB#32, 0x3B6D0B79#32⟩,
    ⟨0x860D21CC#32, 0xA079B7D9#32, 0xD8FDF6AD#32, 0xD7B9DA25#32, 0xC45E4FDB#32⟩,
    ⟨0x5738D5E1#32, 0x860D21CC#32, 0x681E6DF6#32, 0xD8FDF6AD#32, 0xD7B9DA25#32⟩,
    ⟨0x42541B35#32, 0x5738D5E1#32, 0x21834873#32, 0x681E6DF6#32, 0xD8FDF6AD#32⟩]

/-- `W[t]`, as the spec prints it. -/
def tableW (t : Nat) : Word := (tableW0 ++ tableW1 ++ tableW2 ++ tableW3).getD t 0#32

/-- `a` to `e` before round `t`, as the spec prints them. -/
def tableV (t : Nat) : Chain := (iv :: (tableV0 ++ tableV1 ++ tableV2 ++ tableV3)).getD t Chain.zero

theorem table_loads : ∀ t, t < 16 → tableW t = be32At blockAbc (4 * t) := by decide +kernel

theorem table_expands : ∀ t, t < 80 → 16 ≤ t →
    tableW t = (tableW (t - 16) ^^^ tableW (t - 14) ^^^ tableW (t - 8) ^^^ tableW (t - 3)).rotateLeft 1 := by
  decide +kernel

theorem table_rounds : ∀ t, t < 80 → tableV (t + 1) =
    ⟨(tableV t).a.rotateLeft 5 + roundF t (tableV t) + (tableV t).e + roundK t + tableW t,
      (tableV t).a, (tableV t).b.rotateLeft 30, (tableV t).c, (tableV t).d⟩ := by
  decide +kernel

/-- The schedule the model makes is the printed one. -/
theorem test_schedule :
    ((List.range 80).foldl Scratch.scheduleStep (Scratch.start iv blockAbc)).w.toList =
      tableW0 ++ tableW1 ++ tableW2 ++ tableW3 := by
  decide +kernel

/-- A working storage in which the printed values stand before round `t`. -/
def beforeRound (t : Nat) : State :=
  { State.reset with scratch := { Scratch.idle with w := Vector.ofFn fun i : Fin 80 => tableW i, vars := tableV t } }

/-- The working variables after a step. -/
def varsAfter (i : Instr) (s : State) : Option Chain :=
  match exec i s with
  | .next t => some t.scratch.vars
  | .fault _ => none
  | .refused _ => none

theorem test_roundCh : varsAfter (.roundCh 0) (beforeRound 0) = some (tableV 1) ∧
    varsAfter (.roundCh 19) (beforeRound 19) = some (tableV 20) := by decide +kernel
theorem test_roundPar1 : varsAfter (.roundPar1 20) (beforeRound 20) = some (tableV 21) ∧
    varsAfter (.roundPar1 39) (beforeRound 39) = some (tableV 40) := by decide +kernel
theorem test_roundMaj : varsAfter (.roundMaj 40) (beforeRound 40) = some (tableV 41) ∧
    varsAfter (.roundMaj 59) (beforeRound 59) = some (tableV 60) := by decide +kernel
theorem test_roundPar2 : varsAfter (.roundPar2 60) (beforeRound 60) = some (tableV 61) ∧
    varsAfter (.roundPar2 79) (beforeRound 79) = some (tableV 80) := by decide +kernel

/-- Word `t` after a step. -/
def wordAfter (i : Instr) (t : Nat) (s : State) : Option Word :=
  match exec i s with
  | .next u => some (u.scratch.word t)
  | .fault _ => none
  | .refused _ => none

theorem test_loadw :
    wordAfter (.loadw 15) 15 { State.reset with scratch := Scratch.start iv blockAbc } = some 0x00000018#32 := by
  decide +kernel
theorem test_sched : wordAfter (.sched 79) 79 (beforeRound 0) = some 0x822E0879#32 := by decide +kernel
theorem test_initv_feedfwd :
    (match execAll [.initv, .feedfwd] { State.reset with scratch := Scratch.start iv blockAbc } with
      | .next t => some (t.scratch.vars, t.scratch.out.a)
      | .fault _ => none
      | .refused _ => none) = some (iv, 0xCE8A4602#32) := by decide +kernel

/-! ### Blocks, commands, messages (95_test_vectors.md sections 2.4, 2.5, 3, 4, 6) -/

theorem test_compressBlock_abc : compressBlock iv blockAbc =
    ⟨0xA9993E36#32, 0x4706816A#32, 0xBA3E2571#32, 0x7850C26C#32, 0x9CD0D89D#32⟩ := by decide +kernel
theorem test_compressBlock_ones :
    compressBlock ⟨0xFFFFFFFF#32, 0xFFFFFFFF#32, 0xFFFFFFFF#32, 0xFFFFFFFF#32, 0xFFFFFFFF#32⟩
      (List.replicate 64 0xFF#8) =
      ⟨0x3F48159B#32, 0x2DCE51FA#32, 0x8A1E930A#32, 0x02083B68#32, 0xEF70D6E8#32⟩ := by decide +kernel

/-- The last response of a run from reset. -/
def lastResponse (actions : List HostAction) : Option Response :=
  match Host.Core.run core actions.length { State.reset with host := actions } with
  | .next t => State.responses t |>.getLast?
  | .fault _ => none
  | .refused _ => none

/-- Known answer S1: the empty message. -/
theorem test_empty_message : lastResponse [.command 0x02#8 []] =
    some ⟨.ok, [0xDA#8, 0x39#8, 0xA3#8, 0xEE#8, 0x5E#8, 0x6B#8, 0x4B#8, 0x0D#8, 0x32#8, 0x55#8, 0xBF#8,
      0xEF#8, 0x95#8, 0x60#8, 0x18#8, 0x90#8, 0xAF#8, 0xD8#8, 0x07#8, 0x09#8]⟩ := by decide +kernel

/-- Known answer S2 (the 40 digits of 90_conflicts.md C2): `HASH "abc"`. -/
theorem test_hash_abc : lastResponse (hashCommands [0x61#8, 0x62#8, 0x63#8]) =
    some ⟨.ok, [0xA9#8, 0x99#8, 0x3E#8, 0x36#8, 0x47#8, 0x06#8, 0x81#8, 0x6A#8, 0xBA#8, 0x3E#8, 0x25#8,
      0x71#8, 0x78#8, 0x50#8, 0xC2#8, 0x6C#8, 0x9C#8, 0xD0#8, 0xD8#8, 0x9D#8]⟩ := by decide +kernel

/-- Two trailing blocks: 56 bytes 0x61. -/
theorem test_hash_56 : lastResponse (hashCommands (List.replicate 56 0x61#8)) =
    some ⟨.ok, [0xC2#8, 0xDB#8, 0x33#8, 0x0F#8, 0x60#8, 0x83#8, 0x85#8, 0x4C#8, 0x99#8, 0xD4#8, 0xB5#8,
      0xBF#8, 0xB6#8, 0xE8#8, 0xF2#8, 0x9F#8, 0x20#8, 0x1B#8, 0xE6#8, 0x99#8]⟩ := by decide +kernel

/-- `UPDATE 65 * x"61"` from reset. -/
theorem test_update_65 : exec (.update (List.replicate 65 0x61#8)) State.reset = .next
    { State.reset with
      h := ⟨0xDA4968EB#32, 0x2E377C1F#32, 0x884E8F52#32, 0x83524BEB#32, 0xE74EBDBD#32⟩,
      buf := [0x61#8], len := 65#64, phase := .absorbing, responses := [⟨.ok, []⟩] } := by
  have h : (State.reset.absorb (List.replicate 65 0x61#8)).h =
      ⟨0xDA4968EB#32, 0x2E377C1F#32, 0x884E8F52#32, 0x83524BEB#32, 0xE74EBDBD#32⟩ := by decide +kernel
  rw [exec_update_of_accepting ⟨rfl, by decide⟩, ← h]; rfl

/-- A COMPRESS with no block returns its operand. -/
theorem test_compress_no_block : lastResponse [.command 0x03#8 (chainBytes iv)] =
    some ⟨.ok, [0x67#8, 0x45#8, 0x23#8, 0x01#8, 0xEF#8, 0xCD#8, 0xAB#8, 0x89#8, 0x98#8, 0xBA#8, 0xDC#8,
      0xFE#8, 0x10#8, 0x32#8, 0x54#8, 0x76#8, 0xC3#8, 0xD2#8, 0xE1#8, 0xF0#8]⟩ := by decide +kernel

/-- 19 payload bytes: the fault, then every command is refused, then reset and the empty digest begins anew. -/
theorem test_fault_is_sticky :
    lastResponse [.command 0x03#8 (List.replicate 19 0#8)] = some ⟨.faultBlocklen, []⟩ ∧
      lastResponse [.command 0x03#8 (List.replicate 83 0#8), .command 0x00#8 []] = some ⟨.errFaulted, []⟩ ∧
      lastResponse [.command 0x03#8 (List.replicate 83 0#8), .command 0x7F#8 []] = some ⟨.errFaulted, []⟩ ∧
      lastResponse [.command 0x03#8 [], .reset none, .command 0x00#8 []] = some ⟨.ok, []⟩ := by decide +kernel

/-- Priority 2 before 3, and FINALIZE twice. -/
theorem test_priority :
    lastResponse [.command 0x02#8 [], .command 0x02#8 [0x00#8]] = some ⟨.errIllegalCmd, []⟩ ∧
      lastResponse [.command 0x02#8 [], .command 0x02#8 []] = some ⟨.errState, []⟩ ∧
      lastResponse [.command 0x02#8 [], .command 0x01#8 [0x78#8]] = some ⟨.errState, []⟩ := by decide +kernel

theorem test_pad1 : (match exec .pad1 { State.reset with buf := [0x61#8, 0x62#8, 0x63#8], len := 3#64 } with
    | .next t => some t.scratch.tail
    | .fault _ => none
    | .refused _ => none) = some blockAbc := by decide +kernel
theorem test_pad2 : (match exec .pad2
      { State.reset with buf := List.replicate 63 0x61#8, len := 63#64 } with
    | .next t => some t.scratch.tail
    | .fault _ => none
    | .refused _ => none) =
      some (List.replicate 63 0x61#8 ++ [0x80#8] ++ List.replicate 62 0x00#8 ++ [0x01#8, 0xF8#8]) := by
  decide +kernel

/-! ### Witnesses: a concrete state and operands that meet the hypotheses of each statement -/

/-- The reset state with one action of the host pending. -/
def asked (a : HostAction) : State := { State.reset with host := [a] }

/-- The same with the engine faulted. -/
def askedFaulted (a : HostAction) : State := { State.reset with host := [a], faulted := true }

/-- A finalized context. -/
def finalizedState : State := { State.reset with phase := .finalized, len := 3#64 }

/-- A context with `n` pending bytes. -/
def pendingState (n : Nat) : State :=
  { State.reset with buf := List.replicate n 0x61#8, len := BitVec.ofNat 64 n, phase := .absorbing }

theorem witness_HostResetRestoresEverything :
    (askedFaulted (.reset (some (0x01#8, [0x61#8])))).host = [.reset (some (0x01#8, [0x61#8]))] := rfl
theorem witness_OnlyResetClearsFaulted :
    step (askedFaulted (.reset none)) = .next State.reset ∧ (askedFaulted (.reset none)).faulted = true ∧
      State.reset.faulted = false := ⟨rfl, rfl, rfl⟩
theorem witness_OnlyMalformedCompressSetsFaulted :
    ∃ t : State, step (asked (.command 0x03#8 [0x00#8])) = .next t ∧
      (asked (.command 0x03#8 [0x00#8])).faulted = false ∧ t.faulted = true := ⟨_, rfl, rfl, rfl⟩
theorem witness_IdleEngineHoldsItsState : finalizedState.host = [] := rfl
theorem witness_OverlappingCommandsHaveNoStep :
    (asked (.overlap 0x01#8 [] 0x02#8 [])).host = .overlap 0x01#8 [] 0x02#8 [] :: [] := rfl
theorem witness_DecoderAcceptsExactlyTheEncodings :
    decode (.round 3#2 79) = .ok (.roundPar2 79) ∧ (Instr.roundPar2 79).wf = true ∧
      encode (.roundPar2 79) = .round 3#2 79 := by decide
theorem witness_DecoderRejectsReservedAndPayloadOnN :
    (4 ≤ (0x04#8 : Byte).toNat ∧ decode (.command 0x04#8 []) = .error .reservedCode) ∧
      decode (.command 0x03#8 []) = .ok (.compress []) := by decide
theorem witness_StepRunsDecodedCommand :
    (asked (.command 0x02#8 [])).host = .command 0x02#8 [] :: [] ∧
      decode (.command 0x02#8 []) = .ok .finalize := ⟨rfl, rfl⟩
theorem witness_UndecodableCommandIsIllegal :
    (asked (.command 0x00#8 [0x01#8])).host = .command 0x00#8 [0x01#8] :: [] ∧
      decode (.command 0x00#8 [0x01#8]) = .error .payloadOnFormatN ∧
      (asked (.command 0x00#8 [0x01#8])).faulted = false := ⟨rfl, rfl, rfl⟩
theorem witness_FaultedEngineRefusesEveryCommand :
    (askedFaulted (.command 0x7F#8 [])).host = .command 0x7F#8 [] :: [] ∧
      (askedFaulted (.command 0x7F#8 [])).faulted = true := ⟨rfl, rfl⟩
theorem witness_StatusFollowsThePriority :
    (asked (.command 0x03#8 (List.replicate 84 0#8))).host =
      .command 0x03#8 (List.replicate 84 0#8) :: [] := rfl
theorem witness_EveryCommandGivesOneResponse :
    (asked (.command 0x02#8 [])).host = .command 0x02#8 [] :: [] := rfl
theorem witness_RefusedCommandWritesNothingElse :
    ∃ t : State, step (asked (.command 0x03#8 [])) = .next t ∧
      t.responses = (asked (.command 0x03#8 [])).responses ++ [⟨.faultBlocklen, []⟩] ∧
      Status.faultBlocklen ≠ .ok := ⟨_, rfl, rfl, by decide⟩
theorem witness_InitStartsFreshContext : finalizedState.faulted = false := rfl
theorem witness_UpdateAbsorbsItsPayload :
    ((pendingState 63).faulted = false ∧ (pendingState 63).phase ≠ .finalized) ∧
      (finalizedState.faulted = false ∧ finalizedState.phase = .finalized) ∧
      (askedFaulted (.reset none)).faulted = true := by decide
theorem witness_EmptyUpdateIsIdentity :
    (pendingState 63).faulted = false ∧ (pendingState 63).phase ≠ .finalized ∧
      (pendingState 63).buf.length ≤ 63 := by decide
theorem witness_FinalizeReturnsTheDigest :
    (State.reset.faulted = false ∧ State.reset.phase ≠ .finalized ∧ State.reset.buf.length ≤ 63) ∧
      (pendingState 56).faulted = false ∧ (pendingState 56).phase ≠ .finalized ∧
      (pendingState 56).buf.length ≤ 63 := by decide
theorem witness_SecondFinalizeFails :
    finalizedState.faulted = false ∧ finalizedState.phase = .finalized := ⟨rfl, rfl⟩
theorem witness_CompressReturnsTheNewState :
    finalizedState.faulted = false ∧ ([] : List Byte).length % 64 = 0 ∧ blockAbc.length % 64 = 0 := by decide
theorem witness_MalformedCompressFaults :
    State.reset.faulted = false ∧ ¬ ∃ k, (List.replicate 83 0x00#8).length = 20 + 64 * k :=
  ⟨rfl, by rintro ⟨k, hk⟩; simp only [List.length_replicate] at hk; omega⟩
theorem witness_ResetAndInitDifferInFaultedOnly :
    step { askedFaulted (.reset none) with host := [.reset none] } = .next State.reset := rfl
theorem witness_LoadwReadsBigEndian :
    (0 < 16 ∧ 15 < 16) ∧ (Scratch.start iv blockAbc).blk.length = 64 ∧ (Scratch.start iv blockAbc).blk =
      0x61#8 :: 0x62#8 :: 0x63#8 :: 0x80#8 :: (List.replicate 59 0x00#8 ++ [0x18#8]) :=
  ⟨by decide, by decide, rfl⟩
theorem witness_SchedExpandsTheSchedule : (16 ≤ 16 ∧ 16 < 80) ∧ 16 ≤ 79 ∧ 79 < 80 := by decide
theorem witness_RoundsMixTheirPhase :
    State.reset.scratch.vars = ⟨0#32, 0#32, 0#32, 0#32, 0#32⟩ ∧ 19 < 20 ∧ (20 ≤ 20 ∧ 20 < 40) ∧
      (40 ≤ 59 ∧ 59 < 60) ∧ 60 ≤ 79 ∧ 79 < 80 := by decide
theorem witness_PadStepsMakeTheTail :
    (pendingState 55).buf.length ≤ 55 ∧ 56 ≤ (pendingState 56).buf.length ∧
      (pendingState 63).buf.length ≤ 63 := by decide
theorem witness_FinalizeCompressesTheSelectedTail :
    ∀ n, n = 55 ∨ n = 56 → (pendingState n).faulted = false ∧ (pendingState n).phase ≠ .finalized ∧
      (pendingState n).buf.length ≤ 63 := by
  rintro n (rfl | rfl) <;> decide
theorem witness_UnselectedInternalStepsStop :
    16 ≤ 16 ∧ ¬ (16 ≤ 15 ∧ 15 < 80) ∧ ¬ (16 ≤ 80 ∧ 80 < 80) ∧ 20 ≤ 20 ∧
      56 ≤ (pendingState 56).buf.length ∧ (pendingState 55).buf.length ≤ 55 := by decide
theorem witness_InternalStepsWriteWorkingStorageOnly :
    Instr.feedfwd.isCommand = false ∧ ∃ t : State, exec .feedfwd State.reset = .next t := ⟨rfl, _, rfl⟩
theorem witness_WorkingStorageStaysIdle :
    (asked (.command 0x00#8 [])).scratch = Scratch.idle ∧
      ∃ t : State, step (asked (.command 0x00#8 [])) = .next t := ⟨rfl, _, rfl⟩
theorem witness_RotateMovesEveryBit : 0 < 30 ∧ 30 < 32 ∧ 31 < 32 := by decide
theorem witness_RoundFunctionTruthTables : 0 < 32 ∧ 31 < 32 := by decide
theorem witness_ScheduleSelectorPicksTheStep : 15 < 16 ∧ 16 ≤ 16 ∧ 79 < 80 := by decide
theorem witness_PhaseSelectorPicksTheRound : 0 < 80 ∧ 79 < 80 := by decide
theorem witness_DigestIsBigEndian :
    (4 < 5 ∧ 3 < 4) ∧ (Chain.mk 0xDA39A3EE#32 0#32 0#32 0#32 0#32).a = 0xDA39A3EE#32 := by decide
theorem witness_StateSerialisationRoundTrips : 20 ≤ (List.replicate 20 0x61#8).length := by decide
theorem witness_LengthFieldIsBigEndian : (List.replicate 63 0x61#8).length ≤ 63 ∧ 7 < 8 := by decide
theorem witness_BitcountShiftsByThree : 2 < 3 ∧ 60 < 61 := by decide
theorem witness_PaddedTailLayout :
    (List.replicate 54 0x61#8).length ≤ 63 ∧ (List.replicate 54 0x61#8).length < 55 ∧
      55 < (pad (List.replicate 54 0x61#8) 54#64).length - 8 := by decide +kernel
theorem witness_PaddingSelectorCountsBlocks :
    (List.replicate 55 0x61#8).length ≤ 63 ∧ (List.replicate 56 0x61#8).length ≤ 63 := by decide
theorem witness_BlocksAreCompressedInOrder :
    blockAbc.length = 64 * 1 ∧
      ∀ j, j < 1 → (fun j => if j = 0 then iv else compressBlock iv blockAbc) (j + 1) =
        compressBlock ((fun j => if j = 0 then iv else compressBlock iv blockAbc) j)
          ((blockAbc.drop (64 * j)).take 64) := by
  refine ⟨by decide, ?_⟩
  intro j hj
  obtain rfl : j = 0 := by omega
  have h : (blockAbc.drop (64 * 0)).take 64 = blockAbc := by decide
  simp only [h]; rfl
theorem witness_CompressBlockFollowsTheRounds :
    blockAbc.length = 64 ∧ (∀ t, t < 16 → tableW t = be32At blockAbc (4 * t)) ∧
      (∀ t, 16 ≤ t → t < 80 → tableW t =
        (tableW (t - 16) ^^^ tableW (t - 14) ^^^ tableW (t - 8) ^^^ tableW (t - 3)).rotateLeft 1) ∧
      tableV 0 = iv ∧
      ∀ t, t < 80 → tableV (t + 1) =
        ⟨(tableV t).a.rotateLeft 5 + roundF t (tableV t) + (tableV t).e + roundK t + tableW t,
          (tableV t).a, (tableV t).b.rotateLeft 30, (tableV t).c, (tableV t).d⟩ :=
  ⟨by decide, table_loads, fun t h h' => table_expands t h' h, rfl, table_rounds⟩
theorem witness_InternalStepsComputeTheBlock : State.reset.scratch.blk.length = 64 := by decide
theorem witness_SixteenWordWindowSuffices : blockAbc.length = 64 := by decide
theorem witness_SplitUpdatesAgree :
    (pendingState 60).faulted = false ∧ (pendingState 60).phase ≠ .finalized := by decide
theorem witness_ByteSerialUpdateAgrees :
    (pendingState 63).faulted = false ∧ (pendingState 63).phase ≠ .finalized ∧
      (pendingState 63).buf.length ≤ 63 := by decide
theorem witness_StepKeepsContextInvariant :
    (asked (.command 0x00#8 [])).ContextInv ∧ ∃ t : State, step (asked (.command 0x00#8 [])) = .next t :=
  ⟨⟨by decide, fun _ => ⟨rfl, rfl, rfl⟩, fun _ => rfl, fun h => by cases h⟩, _, rfl⟩
theorem witness_ContextHoldsTheMessage :
    (pendingState 3).faulted = false ∧ (pendingState 3).Holds [0x61#8, 0x61#8, 0x61#8] :=
  ⟨rfl, ⟨rfl, rfl, rfl, by decide⟩⟩
theorem witness_WholeMessageDigest :
    (pendingState 3).faulted = false ∧ (pendingState 3).Holds [0x61#8, 0x61#8, 0x61#8] ∧
      [0x61#8, 0x61#8, 0x61#8].length < 2 ^ 61 :=
  ⟨rfl, ⟨rfl, rfl, rfl, by decide⟩, by decide⟩
theorem witness_StreamedMessageRunsToItsDigest :
    ({ State.reset with host := hashCommands [0x61#8] } : State).faulted = false ∧
      ({ State.reset with host := hashCommands [0x61#8] } : State).host =
        (HostAction.command 0x00#8 [] :: [[0x61#8]].map (HostAction.command 0x01#8)) ++
          HostAction.command 0x02#8 [] :: [] ∧ [[0x61#8]].flatten.length < 2 ^ 61 := ⟨rfl, rfl, by decide⟩
theorem witness_NothingLeaksPastInitOrReset :
    (asked (.command 0x00#8 [])).host = { finalizedState with host := [.command 0x00#8 []] }.host ∧
      (asked (.command 0x00#8 [])).faulted = false ∧
      { finalizedState with host := [.command 0x00#8 []] }.faulted = false ∧
      (asked (.command 0x00#8 [])).host = .command 0x00#8 [] :: [] ∧
      ∃ t : State, Host.Core.run core (0 + 1) (asked (.command 0x00#8 [])) = .next t :=
  ⟨rfl, rfl, rfl, rfl, _, rfl⟩
theorem witness_StepKeepsEnginesAlike :
    SameEngine (asked (.command 0x00#8 []))
        { asked (.command 0x00#8 []) with scratch := Scratch.start iv blockAbc, responses := [⟨.ok, []⟩] } ∧
      ∃ t : State, step (asked (.command 0x00#8 [])) = .next t := ⟨⟨rfl, rfl, rfl, rfl, rfl⟩, _, rfl⟩
theorem witness_EmptyAndAbsorbingAnswerAlike :
    (asked (.command 0x01#8 [])).phase = .empty ∧
      ∃ t : State, step (asked (.command 0x01#8 [])) = .next t := ⟨rfl, _, rfl⟩
theorem witness_FinalizedContextIsFrozen :
    { finalizedState with host := [.command 0x02#8 []] }.phase = .finalized ∧
      (∃ t : State, step { finalizedState with host := [.command 0x02#8 []] } = .next t) ∧
      (∀ rest, { finalizedState with host := [.command 0x02#8 []] }.host ≠ .command 0x00#8 [] :: rest) ∧
      ∀ c rest, { finalizedState with host := [.command 0x02#8 []] }.host ≠ .reset c :: rest :=
  ⟨rfl, ⟨_, rfl⟩, by simp, by simp⟩
theorem witness_PhaseFollowsTheTable : finalizedState.faulted = false ∧ State.reset.faulted = false := ⟨rfl, rfl⟩

end Sys2Proof.Tests
end

/-! PROOFS. The family `20_memory`: the block is read, and the digest written, most significant byte first
(spec/20_memory.md R52, R54; spec/40_compress.md R101). -/

namespace Sys2Proof.Machine

/-! ### LOADW reads the block -/

theorem exec_loadw_of_lt {t : Nat} (ht : t < 16) (s : State) :
    exec (.loadw t) s = .next (s.withScratch (s.scratch.loadw t)) := if_pos ht

theorem Scratch.word_loadw_self {t : Nat} (ht : t < 80) (sc : Scratch) :
    (sc.loadw t).word t = be32At sc.blk (4 * t) := Scratch.word_setWord_self ht _

theorem Scratch.word_loadw_ne {i t : Nat} (hi : i ≠ t) (sc : Scratch) :
    (sc.loadw t).word i = sc.word i := Scratch.word_setWord_ne hi _

/-- Writing one schedule word changes no field of the state but the words. -/
theorem State.withScratch_setWord (s : State) (i : Nat) (v : Word) :
    s.withScratch (s.scratch.setWord i v) =
      { s with scratch := { s.scratch with w := (s.scratch.setWord i v).w } } := rfl

/-- Settles O24: word `t` is written by LOADW alone, from the big-endian read of the block; the printed bytes
are those `bytes32` writes for 0x61626380, so the read gives that word back. -/
theorem loadwReadsBigEndian : Obligations.LoadwReadsBigEndian := by
  unfold Obligations.LoadwReadsBigEndian
  refine ⟨fun s t _ ht => ?_, fun s u more _ hblk hu => ?_⟩
  · exact ⟨_, exec_loadw_of_lt ht s, Scratch.word_loadw_self (by omega) _,
      fun i hi => Scratch.word_loadw_ne hi _, s.withScratch_setWord t _⟩
  · rw [exec_loadw_of_lt (by decide)] at hu
    injection hu with hu
    have hbytes : s.scratch.blk = bytes32 0x61626380#32 ++ more := hblk
    calc u.scratch.word 0 = (s.scratch.loadw 0).word 0 := by rw [← hu, State.withScratch_scratch]
      _ = be32At s.scratch.blk 0 := Scratch.word_loadw_self (by decide) _
      _ = 0x61626380#32 := by rw [hbytes, be32At_bytes32]

/-! ### The bytes of words in order -/

/-- Byte `k` of a word, from the most significant, is its bits `[31-8k : 24-8k]` (R54). -/
theorem bytes32_getElem? (v : Word) {k : Nat} (hk : k < 4) :
    (bytes32 v)[k]? = some (v.extractLsb' (24 - 8 * k) 8) := by
  match k, hk with
  | 0, _ | 1, _ | 2, _ | 3, _ => rfl

/-- Words written one after another take four bytes each: byte `4i+k` is byte `k` of word `i`. -/
theorem flatMap_bytes32_getElem? (ws : List Word) {i k : Nat} (hi : i < ws.length) (hk : k < 4) :
    (ws.flatMap bytes32)[4 * i + k]? = (bytes32 (ws.getD i 0#32))[k]? := by
  induction ws generalizing i with
  | nil => exact absurd hi (Nat.not_lt_zero i)
  | cons w ws ih =>
    rw [List.flatMap_cons]
    cases i with
    | zero => rw [Nat.mul_zero, Nat.zero_add, List.getElem?_append_left hk, List.getD_cons_zero]
    | succ i =>
      have hskip : 4 * (i + 1) + k - (bytes32 w).length = 4 * i + k := by
        rw [bytes32_length]; omega
      rw [List.getElem?_append_right (by rw [bytes32_length]; omega), hskip, List.getD_cons_succ]
      exact ih (Nat.lt_of_succ_lt_succ hi)

theorem chainBytes_eq_flatMap (c : Chain) :
    chainBytes c = [c.a, c.b, c.c, c.d, c.e].flatMap bytes32 := rfl

theorem chainBytes_take_four (c : Chain) : (chainBytes c).take 4 = bytes32 c.a := rfl

/-- Settles O38: the serialisation is the five words one after another, each most significant byte first. -/
theorem digestIsBigEndian : Obligations.DigestIsBigEndian := by
  unfold Obligations.DigestIsBigEndian
  refine fun c => ⟨chainBytes_length c, fun i k hi hk => ?_, fun ha => ?_⟩
  · rw [chainBytes_eq_flatMap, flatMap_bytes32_getElem? _ hi hk, bytes32_getElem? _ hk]
  · rw [chainBytes_take_four, ha]
    decide

end Sys2Proof.Machine

/-! PROOFS. The family `30_encoding`: the selectors of schedule word `t` and of round `t`, the decoder's reading of
them, and the step the compression takes (spec/30_encoding.md R80, R81). -/

namespace Sys2Proof

/-! ### The decoder reads back every encoding -/

/-- Every well-formed instruction is what the decoder reads from its code: the selector the encoder writes is the
one the decoder wants, and `wf` is the range of the index. -/
theorem decode_encode {i : Instr} (hwf : i.wf = true) : decode (encode i) = .ok i := by
  cases i with
  | init | finalize | initv | feedfwd | pad1 | pad2 => rfl
  | update data | compress payload => rfl
  | loadw t => exact if_pos ⟨rfl, of_decide_eq_true hwf⟩
  | sched t =>
    have ht : 16 ≤ t ∧ t < 80 := of_decide_eq_true hwf
    simp [encode, decode, decodeSchedule, ht]
  | roundCh t => exact if_pos ⟨rfl, of_decide_eq_true hwf⟩
  | roundPar1 t =>
    have ht : 20 ≤ t ∧ t < 40 := of_decide_eq_true hwf
    simp [encode, decode, decodeRound, ht]
  | roundMaj t =>
    have ht : 40 ≤ t ∧ t < 60 := of_decide_eq_true hwf
    simp [encode, decode, decodeRound, ht]
  | roundPar2 t =>
    have ht : 60 ≤ t ∧ t < 80 := of_decide_eq_true hwf
    simp [encode, decode, decodeRound, ht]

end Sys2Proof

namespace Sys2Proof.Machine

/-! ### The schedule selector -/

theorem scheduleSelector_of_lt {t : Nat} (ht : t < 16) : scheduleSelector t = 0#1 := if_pos ht

theorem scheduleSelector_of_ge {t : Nat} (ht : 16 ≤ t) : scheduleSelector t = 1#1 :=
  if_neg (Nat.not_lt.mpr ht)

/-- Settles O36: below 16 the selector is LOADW's and the decoder and the compression follow it, from 16 on
SCHED's. -/
theorem scheduleSelectorPicksTheStep : Obligations.ScheduleSelectorPicksTheStep := by
  unfold Obligations.ScheduleSelectorPicksTheStep
  refine fun t sc => ⟨fun ht => ?_, fun hlo hhi => ?_⟩
  · exact ⟨scheduleSelector_of_lt ht, decode_encode (i := .loadw t) (decide_eq_true ht),
      scheduleStep_of_lt ht sc⟩
  · exact ⟨scheduleSelector_of_ge hlo, decode_encode (i := .sched t) (decide_eq_true ⟨hlo, hhi⟩),
      scheduleStep_of_ge hlo sc⟩

/-! ### The phase selector -/

/-- The four phases of R80 cover the rounds. -/
theorem phase_cases {t : Nat} (ht : t < 80) :
    t < 20 ∨ (20 ≤ t ∧ t < 40) ∨ (40 ≤ t ∧ t < 60) ∨ (60 ≤ t ∧ t < 80) := by omega

/-- The decoder reads the round of the phase from the selector of round `t`. -/
theorem decode_phaseSelector {t : Nat} (ht : t < 80) :
    decode (.round (phaseSelector t) t) =
      .ok (if t < 20 then .roundCh t else if t < 40 then .roundPar1 t
        else if t < 60 then .roundMaj t else .roundPar2 t) := by
  obtain h | ⟨hlo, hhi⟩ | ⟨hlo, hhi⟩ | ⟨hlo, hhi⟩ := phase_cases ht
  · rw [phaseSelector_eq (p := 0) (by omega), if_pos h]
    exact decode_encode (i := .roundCh t) (decide_eq_true h)
  · rw [phaseSelector_eq (p := 1) (by omega), if_neg (by omega), if_pos hhi]
    exact decode_encode (i := .roundPar1 t) (decide_eq_true ⟨hlo, hhi⟩)
  · rw [phaseSelector_eq (p := 2) (by omega), if_neg (by omega), if_neg (by omega), if_pos hhi]
    exact decode_encode (i := .roundMaj t) (decide_eq_true ⟨hlo, hhi⟩)
  · rw [phaseSelector_eq (p := 3) (by omega), if_neg (by omega), if_neg (by omega), if_neg (by omega)]
    exact decode_encode (i := .roundPar2 t) (decide_eq_true ⟨hlo, hhi⟩)

/-! ### The function and the constant of a round -/

theorem roundF_phase0 {t : Nat} (h : t < 20) (v : Chain) : roundF t v = fCh v.b v.c v.d := if_pos h

theorem roundF_phase1 {t : Nat} (h : 20 ≤ t) (h' : t < 40) (v : Chain) :
    roundF t v = fParity v.b v.c v.d := by
  rw [roundF, if_neg (by omega), if_pos h', fParity]

theorem roundF_phase2 {t : Nat} (h : 40 ≤ t) (h' : t < 60) (v : Chain) :
    roundF t v = fMaj v.b v.c v.d := by
  rw [roundF, if_neg (by omega), if_neg (by omega), if_pos h', fMaj]

theorem roundF_phase3 {t : Nat} (h : 60 ≤ t) (v : Chain) : roundF t v = fParity v.b v.c v.d := by
  rw [roundF, if_neg (by omega), if_neg (by omega), if_neg (by omega), fParity]

theorem roundK_phase0 {t : Nat} (h : t < 20) : roundK t = k0 := if_pos h

theorem roundK_phase1 {t : Nat} (h : 20 ≤ t) (h' : t < 40) : roundK t = k1 := by
  rw [roundK, if_neg (by omega), if_pos h', k1]

theorem roundK_phase2 {t : Nat} (h : 40 ≤ t) (h' : t < 60) : roundK t = k2 := by
  rw [roundK, if_neg (by omega), if_neg (by omega), if_pos h', k2]

theorem roundK_phase3 {t : Nat} (h : 60 ≤ t) : roundK t = k3 := by
  rw [roundK, if_neg (by omega), if_neg (by omega), if_neg (by omega), k3]

/-- Round `t` is the update common to all rounds (R104) with the function and the constant of its phase. -/
theorem roundStep_eq_mix {t : Nat} (ht : t < 80) (sc : Scratch) :
    sc.roundStep t =
      { sc with vars := mix (roundF t sc.vars) (roundK t) (sc.word t) sc.vars } := by
  obtain h | ⟨hlo, hhi⟩ | ⟨hlo, hhi⟩ | ⟨hlo, hhi⟩ := phase_cases ht
  · rw [roundStep_phase0 h, Scratch.roundCh, roundF_phase0 h, roundK_phase0 h]
  · rw [roundStep_phase1 hlo hhi, Scratch.roundPar1, roundF_phase1 hlo hhi, roundK_phase1 hlo hhi]
  · rw [roundStep_phase2 hlo hhi, Scratch.roundMaj, roundF_phase2 hlo hhi, roundK_phase2 hlo hhi]
  · rw [roundStep_phase3 hlo hhi, Scratch.roundPar2, roundF_phase3 hlo, roundK_phase3 hlo]

/-- Settles O37: the selector is `t div 20`, and the decoder and the compression take the round it names. -/
theorem phaseSelectorPicksTheRound : Obligations.PhaseSelectorPicksTheRound := by
  unfold Obligations.PhaseSelectorPicksTheRound
  intro t sc ht
  exact ⟨phaseSelector_toNat ht, decode_phaseSelector ht, roundStep_eq_mix ht sc⟩

end Sys2Proof.Machine

/-! PROOFS. The family `40_compress`: what each step of a block compression writes, and the compression of a whole
block as a schedule followed by eighty rounds (spec/40_compress.md R100 to R110). -/

namespace Sys2Proof.Machine

/-! ### The schedule steps -/

theorem exec_sched_of_range {t : Nat} (hlo : 16 ≤ t) (hhi : t < 80) (s : State) :
    exec (.sched t) s = .next (s.withScratch (s.scratch.sched t)) := if_pos ⟨hlo, hhi⟩

theorem Scratch.word_sched_self {t : Nat} (ht : t < 80) (sc : Scratch) :
    (sc.sched t).word t =
      (sc.word (t - 16) ^^^ sc.word (t - 14) ^^^ sc.word (t - 8) ^^^ sc.word (t - 3)).rotateLeft 1 := by
  rw [Scratch.sched, Scratch.word_setWord_self ht, rotl_eq_rotateLeft (by decide), BitVec.xor_assoc,
    BitVec.xor_assoc, BitVec.xor_assoc]

theorem Scratch.word_sched_ne {i t : Nat} (hi : i ≠ t) (sc : Scratch) :
    (sc.sched t).word i = sc.word i := Scratch.word_setWord_ne hi _

/-- Settles O25: word `t` is written by SCHED alone, from the four earlier words. -/
theorem schedExpandsTheSchedule : Obligations.SchedExpandsTheSchedule := by
  unfold Obligations.SchedExpandsTheSchedule
  intro s t hlo hhi
  exact ⟨_, exec_sched_of_range hlo hhi s, Scratch.word_sched_self hhi _,
    fun i hi => Scratch.word_sched_ne hi _, s.withScratch_setWord t _⟩

/-! ### The steps on the working variables -/

theorem exec_initv (s : State) : exec .initv s = .next (s.withScratch s.scratch.initv) := rfl

theorem exec_feedfwd (s : State) : exec .feedfwd s = .next (s.withScratch s.scratch.feedfwd) := rfl

theorem exec_roundCh_of_lt {t : Nat} (ht : t < 20) (s : State) :
    exec (.roundCh t) s = .next (s.withScratch (s.scratch.roundCh t)) := if_pos ht

theorem exec_roundPar1_of_range {t : Nat} (hlo : 20 ≤ t) (hhi : t < 40) (s : State) :
    exec (.roundPar1 t) s = .next (s.withScratch (s.scratch.roundPar1 t)) := if_pos ⟨hlo, hhi⟩

theorem exec_roundMaj_of_range {t : Nat} (hlo : 40 ≤ t) (hhi : t < 60) (s : State) :
    exec (.roundMaj t) s = .next (s.withScratch (s.scratch.roundMaj t)) := if_pos ⟨hlo, hhi⟩

theorem exec_roundPar2_of_range {t : Nat} (hlo : 60 ≤ t) (hhi : t < 80) (s : State) :
    exec (.roundPar2 t) s = .next (s.withScratch (s.scratch.roundPar2 t)) := if_pos ⟨hlo, hhi⟩

/-- The update of R104 in the library's rotates. -/
theorem mix_eq_rotateLeft (f k w : Word) (v : Chain) :
    mix f k w v = ⟨v.a.rotateLeft 5 + f + v.e + k + w, v.a, v.b.rotateLeft 30, v.c, v.d⟩ := by
  rw [mix, rotl_eq_rotateLeft (by decide), rotl_eq_rotateLeft (by decide)]

/-- Settles O26: INITV is the copy of the state by its definition. -/
theorem initvCopiesTheState : Obligations.InitvCopiesTheState := exec_initv

/-- Settles O28: FEEDFWD is the addition word by word by its definition. -/
theorem feedfwdAddsTheOldState : Obligations.FeedfwdAddsTheOldState := exec_feedfwd

/-- Settles O27: each round is the update of R104 with the function and the constant of its phase. -/
theorem roundsMixTheirPhase : Obligations.RoundsMixTheirPhase := by
  unfold Obligations.RoundsMixTheirPhase
  intro s t a b c d e hv
  refine ⟨fun h => ?_, fun hlo hhi => ?_, fun hlo hhi => ?_, fun hlo hhi => ?_⟩
  · rw [exec_roundCh_of_lt h, Scratch.roundCh, hv, mix_eq_rotateLeft, fCh, k0, State.withScratch]
  · rw [exec_roundPar1_of_range hlo hhi, Scratch.roundPar1, hv, mix_eq_rotateLeft, fParity, k1,
      State.withScratch]
  · rw [exec_roundMaj_of_range hlo hhi, Scratch.roundMaj, hv, mix_eq_rotateLeft, fMaj, k2,
      State.withScratch]
  · rw [exec_roundPar2_of_range hlo hhi, Scratch.roundPar2, hv, mix_eq_rotateLeft, fParity, k3,
      State.withScratch]

/-! ### The schedule of a block

The eighty schedule steps compute the words of R101 and R102 whatever the words held before. -/

/-- `W` follows the recurrence of the schedule of a block (R101, R102, R110). -/
structure IsSchedule (blk : List Byte) (W : Nat → Word) : Prop where
  loads : ∀ t, t < 16 → W t = be32At blk (4 * t)
  expands : ∀ t, 16 ≤ t → t < 80 →
    W t = (W (t - 16) ^^^ W (t - 14) ^^^ W (t - 8) ^^^ W (t - 3)).rotateLeft 1

/-- The schedule of a block, word by word. -/
def scheduleWord (blk : List Byte) (t : Nat) : Word :=
  if t < 16 then be32At blk (4 * t)
  else (scheduleWord blk (t - 16) ^^^ scheduleWord blk (t - 14) ^^^ scheduleWord blk (t - 8) ^^^
    scheduleWord blk (t - 3)).rotateLeft 1
termination_by t

theorem isSchedule_scheduleWord (blk : List Byte) : IsSchedule blk (scheduleWord blk) where
  loads t ht := by rw [scheduleWord, if_pos ht]
  expands t hlo _ := by rw [scheduleWord, if_neg (Nat.not_lt.mpr hlo)]

theorem scheduleStep_blk (sc : Scratch) (t : Nat) : (sc.scheduleStep t).blk = sc.blk := by
  obtain ⟨v, hv⟩ := scheduleStep_frame sc t
  rw [hv, Scratch.setWord_blk]

theorem word_scheduleStep_ne {i t : Nat} (hi : i ≠ t) (sc : Scratch) :
    (sc.scheduleStep t).word i = sc.word i := by
  obtain ⟨v, hv⟩ := scheduleStep_frame sc t
  rw [hv, Scratch.word_setWord_ne hi]

/-- With the words before `t` in place, step `t` writes word `t` of the schedule. -/
theorem word_scheduleStep_self {sc : Scratch} {W : Nat → Word} (hW : IsSchedule sc.blk W) {t : Nat}
    (ht : t < 80) (hbefore : ∀ i, i < t → sc.word i = W i) : (sc.scheduleStep t).word t = W t := by
  obtain h | h := Nat.lt_or_ge t 16
  · rw [scheduleStep_of_lt h, Scratch.word_loadw_self ht, hW.loads t h]
  · rw [scheduleStep_of_ge h, Scratch.word_sched_self ht, hW.expands t h ht, hbefore _ (by omega),
      hbefore _ (by omega), hbefore _ (by omega), hbefore _ (by omega)]

theorem foldl_scheduleStep_blk (ts : List Nat) (sc : Scratch) :
    (ts.foldl Scratch.scheduleStep sc).blk = sc.blk := by
  obtain ⟨w, hw⟩ := foldl_scheduleStep_frame ts sc
  rw [hw]

theorem foldl_scheduleStep_chain (ts : List Nat) (sc : Scratch) :
    (ts.foldl Scratch.scheduleStep sc).chain = sc.chain := by
  obtain ⟨w, hw⟩ := foldl_scheduleStep_frame ts sc
  rw [hw]

/-- After `n` schedule steps the first `n` words are those of the schedule. -/
theorem word_foldl_scheduleStep {sc : Scratch} {W : Nat → Word} (hW : IsSchedule sc.blk W) {n : Nat}
    (hn : n ≤ 80) : ∀ i, i < n → ((List.range n).foldl Scratch.scheduleStep sc).word i = W i := by
  induction n with
  | zero => intro i hi; omega
  | succ n ih =>
    intro i hi
    rw [List.range_succ, List.foldl_append, List.foldl_cons, List.foldl_nil]
    obtain rfl | hne := eq_or_ne i n
    · exact word_scheduleStep_self (by rwa [foldl_scheduleStep_blk]) hn (ih (by omega))
    · rw [word_scheduleStep_ne hne, ih (by omega) i (by omega)]

/-! ### The rounds of a block -/

/-- Round `t` on the working variables (R104), with the schedule as a function. -/
def roundVars (W : Nat → Word) (v : Chain) (t : Nat) : Chain := mix (roundF t v) (roundK t) (W t) v

theorem word_roundStep (sc : Scratch) (t i : Nat) : (sc.roundStep t).word i = sc.word i := by
  obtain ⟨v, hv⟩ := roundStep_frame sc t
  rw [hv]; rfl

theorem roundStep_vars {W : Nat → Word} {t : Nat} (ht : t < 80) {sc : Scratch} (hw : sc.word t = W t) :
    (sc.roundStep t).vars = roundVars W sc.vars t := by
  rw [roundStep_eq_mix ht, hw, roundVars]

theorem foldl_roundStep_blk (ts : List Nat) (sc : Scratch) :
    (ts.foldl Scratch.roundStep sc).blk = sc.blk := by
  obtain ⟨v, hv⟩ := foldl_roundStep_frame ts sc
  rw [hv]

theorem foldl_roundStep_chain (ts : List Nat) (sc : Scratch) :
    (ts.foldl Scratch.roundStep sc).chain = sc.chain := by
  obtain ⟨v, hv⟩ := foldl_roundStep_frame ts sc
  rw [hv]

/-- Rounds act on the working variables alone, and read of the schedule the words of their indexes. -/
theorem vars_foldl_roundStep {W : Nat → Word} {ts : List Nat} {sc : Scratch}
    (hts : ∀ t, t ∈ ts → t < 80 ∧ sc.word t = W t) :
    (ts.foldl Scratch.roundStep sc).vars = ts.foldl (roundVars W) sc.vars := by
  induction ts generalizing sc with
  | nil => rfl
  | cons t ts ih =>
    obtain ⟨ht, hw⟩ := hts t (List.mem_cons_self ..)
    have hrest : ∀ u, u ∈ ts → u < 80 ∧ (sc.roundStep t).word u = W u := fun u hu => by
      rw [word_roundStep]
      exact hts u (List.mem_cons_of_mem _ hu)
    rw [List.foldl_cons, List.foldl_cons, ih hrest, roundStep_vars ht hw]

/-- Working variables that follow the recurrence of R104 are those of the rounds run in order. -/
theorem foldl_roundVars_eq {W : Nat → Word} {v : Nat → Chain} {n : Nat}
    (hv : ∀ t, t < n → v (t + 1) = roundVars W (v t) t) :
    (List.range n).foldl (roundVars W) (v 0) = v n := by
  induction n with
  | zero => rfl
  | succ n ih =>
    rw [List.range_succ, List.foldl_append, ih (fun t ht => hv t (by omega)), List.foldl_cons,
      List.foldl_nil, hv n (by omega)]

/-! ### The compression of a block -/

/-- The word-by-word sum of R109. -/
def addChain (s v : Chain) : Chain := ⟨s.a + v.a, s.b + v.b, s.c + v.c, s.d + v.d, s.e + v.e⟩

theorem Scratch.word_initv (sc : Scratch) (i : Nat) : sc.initv.word i = sc.word i := rfl

theorem feedfwd_out_eq_addChain (sc : Scratch) : sc.feedfwd.out = addChain sc.chain sc.vars := rfl

theorem compress_blk (sc : Scratch) : sc.compress.blk = sc.blk := by
  rw [Scratch.compress, Scratch.feedfwd_blk, foldl_roundStep_blk, Scratch.initv_blk,
    foldl_scheduleStep_blk]

theorem compress_chain (sc : Scratch) : sc.compress.chain = sc.chain := by
  rw [Scratch.compress, Scratch.feedfwd_chain, foldl_roundStep_chain, Scratch.initv_chain,
    foldl_scheduleStep_chain]

/-- The result of the steps of R100 is fixed by the block and the state alone: the state plus the working variables
after eighty rounds over the block's schedule. -/
theorem compress_out {sc : Scratch} {W : Nat → Word} (hW : IsSchedule sc.blk W) :
    sc.compress.out = addChain sc.chain ((List.range 80).foldl (roundVars W) sc.chain) := by
  have hwords : ∀ t, t ∈ List.range 80 → t < 80 ∧
      ((List.range 80).foldl Scratch.scheduleStep sc).initv.word t = W t := by
    intro t ht
    rw [Scratch.word_initv]
    exact ⟨List.mem_range.mp ht, word_foldl_scheduleStep hW (Nat.le_refl 80) t (List.mem_range.mp ht)⟩
  rw [Scratch.compress, Config.schedWords, Config.rounds, feedfwd_out_eq_addChain,
    foldl_roundStep_chain, vars_foldl_roundStep hwords, Scratch.initv_chain, Scratch.initv_vars,
    foldl_scheduleStep_chain]

theorem compressBlock_eq_addChain {W : Nat → Word} {blk : List Byte} (hW : IsSchedule blk W) (S : Chain) :
    compressBlock S blk = addChain S ((List.range 80).foldl (roundVars W) S) :=
  compress_out (sc := Scratch.start S blk) hW

/-- Settles O45: the words are the block's schedule and the variables those of its rounds. -/
theorem compressBlockFollowsTheRounds : Obligations.CompressBlockFollowsTheRounds := by
  unfold Obligations.CompressBlockFollowsTheRounds
  intro S blk W v _ hloads hexpands hstart hround
  have hv : ∀ t, t < 80 → v (t + 1) = roundVars W (v t) t := fun t ht => by
    rw [hround t ht, roundVars, mix_eq_rotateLeft]
  rw [compressBlock_eq_addChain ⟨hloads, hexpands⟩, ← hstart, foldl_roundVars_eq hv, addChain]

/-! ### The internal steps in order -/

/-- The row of the opcode table for schedule word `t` (R81). -/
def scheduleInstr (t : Nat) : Instr := if t < 16 then .loadw t else .sched t

/-- The row of the opcode table for round `t` (R80). -/
def roundInstr (t : Nat) : Instr :=
  if t < 20 then .roundCh t else if t < 40 then .roundPar1 t
  else if t < 60 then .roundMaj t else .roundPar2 t

/-- The eighty schedule rows and the eighty round rows, each list as one range of indexes. -/
theorem blockSteps_eq :
    blockSteps = (List.range 80).map scheduleInstr ++ [.initv] ++ (List.range 80).map roundInstr ++
      [.feedfwd] := by decide +kernel

theorem exec_scheduleInstr {t : Nat} (ht : t < 80) (s : State) :
    exec (scheduleInstr t) s = .next (s.withScratch (s.scratch.scheduleStep t)) := by
  obtain h | h := Nat.lt_or_ge t 16
  · rw [scheduleInstr, if_pos h, exec_loadw_of_lt h, scheduleStep_of_lt h]
  · rw [scheduleInstr, if_neg (by omega), exec_sched_of_range h ht, scheduleStep_of_ge h]

theorem exec_roundInstr {t : Nat} (ht : t < 80) (s : State) :
    exec (roundInstr t) s = .next (s.withScratch (s.scratch.roundStep t)) := by
  obtain h | ⟨hlo, hhi⟩ | ⟨hlo, hhi⟩ | ⟨hlo, hhi⟩ := phase_cases ht
  · rw [roundInstr, if_pos h, exec_roundCh_of_lt h, roundStep_phase0 h]
  · rw [roundInstr, if_neg (by omega), if_pos hhi, exec_roundPar1_of_range hlo hhi,
      roundStep_phase1 hlo hhi]
  · rw [roundInstr, if_neg (by omega), if_neg (by omega), if_pos hhi, exec_roundMaj_of_range hlo hhi,
      roundStep_phase2 hlo hhi]
  · rw [roundInstr, if_neg (by omega), if_neg (by omega), if_neg (by omega),
      exec_roundPar2_of_range hlo hhi, roundStep_phase3 hlo hhi]

theorem execAll_singleton {i : Instr} {s t : State} (h : exec i s = .next t) :
    execAll [i] s = .next t := by
  simp only [execAll, h]

/-- The internal steps run one by one are the compression of the working storage. -/
theorem execAll_blockSteps (s : State) :
    execAll blockSteps s = .next (s.withScratch s.scratch.compress) := by
  have hsched := execAll_map (f := scheduleInstr)
    (fun u t ht => exec_scheduleInstr (List.mem_range.mp ht) u) s
  have hround := fun u => execAll_map (f := roundInstr)
    (fun u t ht => exec_roundInstr (List.mem_range.mp ht) u) u
  have hinitv := (execAll_append hsched).trans (execAll_singleton (exec_initv _))
  have hrounds := (execAll_append hinitv).trans (hround _)
  rw [blockSteps_eq, execAll_append hrounds, execAll_singleton (exec_feedfwd _)]
  simp only [State.withScratch_scratch, State.withScratch_withScratch, Scratch.compress,
    Config.schedWords, Config.rounds]

/-- Settles O46: the internal steps are the compression of the working storage, whose result is fixed by the block
and the state, as the command's is. -/
theorem internalStepsComputeTheBlock : Obligations.InternalStepsComputeTheBlock := by
  unfold Obligations.InternalStepsComputeTheBlock
  intro s _
  have hW := isSchedule_scheduleWord s.scratch.blk
  exact ⟨_, execAll_blockSteps s, (compress_out hW).trans (compressBlock_eq_addChain hW _).symm,
    compress_chain _, compress_blk _, rfl⟩

end Sys2Proof.Machine

/-! PROOFS. The family `41_streaming`: UPDATE absorbs its payload, or raises and writes nothing
(spec/41_streaming.md R142). -/

namespace Sys2Proof.Machine

/-! ### Raising -/

/-- A status that is no fault is only a response without payload: nothing else changes (R186). -/
theorem State.raise_of_ne_faultBlocklen {st : Status} (h : st ≠ .faultBlocklen) (s : State) :
    s.raise st = s.respond st [] := by
  cases st with
  | faultBlocklen => exact absurd rfl h
  | ok | errState | errIllegalCmd | errFaulted => rfl

theorem exec_update_of_faulted {s : State} (h : s.faulted = true) (data : List Byte) :
    exec (.update data) s = .next (s.respond .errFaulted []) := by
  rw [← s.raise_of_ne_faultBlocklen (by decide)]
  exact unlessFaulted_of_faulted h _

theorem exec_update_of_finalized {s : State} (h : s.faulted = false) (hphase : s.phase = .finalized)
    (data : List Byte) : exec (.update data) s = .next (s.respond .errState []) := by
  rw [← s.raise_of_ne_faultBlocklen (by decide)]
  exact (unlessFaulted_of_ready h _).trans (if_pos hphase)

/-! ### The counter and the fill -/

/-- The byte counter advances modulo `2^64` (R142). -/
theorem counter_add_ofNat (len : Counter) (n : Nat) :
    len + BitVec.ofNat 64 n = BitVec.ofNat 64 ((len.toNat + n) % 2 ^ 64) := by
  apply BitVec.eq_of_toNat_eq
  simp only [BitVec.toNat_add, BitVec.toNat_ofNat, Nat.add_mod_mod, Nat.mod_mod]

theorem remainder_pendingWith_length (buf data : List Byte) :
    (remainder (pendingWith buf data)).length = (buf.length + data.length) % 64 := by
  rw [remainder_length, pendingWith, List.length_append]

/-- Settles O17: a faulted engine and a finalized context raise, every other state absorbs the bytes, its counter
modulo `2^64`; the new fill is the length of the remainder. -/
theorem updateAbsorbsItsPayload : Obligations.UpdateAbsorbsItsPayload := by
  unfold Obligations.UpdateAbsorbsItsPayload
  refine fun data s => ⟨fun hf => ?_, fun hf hphase => ?_, fun hf hphase => ⟨?_, ?_⟩⟩
  · exact exec_update_of_faulted hf data
  · exact exec_update_of_finalized hf hphase data
  · rw [exec_update_of_accepting ⟨hf, hphase⟩, ← counter_add_ofNat]
    rfl
  · exact remainder_pendingWith_length s.buf data

end Sys2Proof.Machine

/-! PROOFS. The family `42_finalize`: FINALIZE in a finalized context raises and writes nothing
(spec/42_finalize.md R164). -/

namespace Sys2Proof.Machine

theorem exec_finalize_of_finalized {s : State} (h : s.faulted = false) (hphase : s.phase = .finalized) :
    exec .finalize s = .next (s.respond .errState []) := by
  rw [← s.raise_of_ne_faultBlocklen (by decide)]
  exact (unlessFaulted_of_ready h _).trans (if_pos hphase)

/-- Settles O20: the phase check comes before the padding, and `ERR_STATE` is no fault, so the response is the
one change. -/
theorem secondFinalizeFails : Obligations.SecondFinalizeFails := by
  unfold Obligations.SecondFinalizeFails
  intro s hf hphase
  exact exec_finalize_of_finalized hf hphase

end Sys2Proof.Machine

/-! PROOFS. The decoder: what it reads from each space of the table is an encoding of a well-formed instruction
(spec/30_encoding.md R71, R72, R80, R81, R83). -/

namespace Sys2Proof

/-! ### What the decoder reads from each space -/

theorem decodeSchedule_ok {s : BitVec 1} {t : Nat} {i : Instr} (h : decode (.schedule s t) = .ok i) :
    (s = 0#1 ∧ t < 16 ∧ i = .loadw t) ∨ (s = 1#1 ∧ (16 ≤ t ∧ t < 80) ∧ i = .sched t) := by
  simp only [decode, decodeSchedule] at h
  split at h
  · next hc => injection h with h; exact .inl ⟨hc.1, hc.2, h.symm⟩
  · split at h
    · next hc => injection h with h; exact .inr ⟨hc.1, hc.2, h.symm⟩
    · cases h

theorem decodeRound_ok {p : BitVec 2} {t : Nat} {i : Instr} (h : decode (.round p t) = .ok i) :
    (p = 0#2 ∧ t < 20 ∧ i = .roundCh t) ∨ (p = 1#2 ∧ (20 ≤ t ∧ t < 40) ∧ i = .roundPar1 t) ∨
      (p = 2#2 ∧ (40 ≤ t ∧ t < 60) ∧ i = .roundMaj t) ∨
      (p = 3#2 ∧ (60 ≤ t ∧ t < 80) ∧ i = .roundPar2 t) := by
  simp only [decode, decodeRound] at h
  split at h
  · next hc => injection h with h; exact .inl ⟨hc.1, hc.2, h.symm⟩
  · split at h
    · next hc => injection h with h; exact .inr (.inl ⟨hc.1, hc.2, h.symm⟩)
    · split at h
      · next hc => injection h with h; exact .inr (.inr (.inl ⟨hc.1, hc.2, h.symm⟩))
      · split at h
        · next hc => injection h with h; exact .inr (.inr (.inr ⟨hc.1, hc.2, h.symm⟩))
        · cases h

theorem decodePadding_ok {q : BitVec 1} {i : Instr} (h : decode (.padding q) = .ok i) :
    (q = 0#1 ∧ i = .pad1) ∨ (q = 1#1 ∧ i = .pad2) := by
  obtain rfl | rfl := BitVec.eq_zero_or_eq_one q
  · injection h with h; exact .inl ⟨rfl, h.symm⟩
  · injection h with h; exact .inr ⟨rfl, h.symm⟩

/-- What the decoder reads is well formed, and the code it was read from is its encoding. -/
theorem wf_and_encode_of_decode {c : Code} {i : Instr} (h : decode c = .ok i) :
    i.wf = true ∧ encode i = c := by
  cases c with
  | command op payload =>
    obtain ⟨rfl, rfl, rfl⟩ | ⟨rfl, rfl⟩ | ⟨rfl, rfl, rfl⟩ | ⟨rfl, rfl⟩ := Machine.decodeCommand_ok h <;>
      exact ⟨rfl, rfl⟩
  | schedule s t =>
    obtain ⟨rfl, ht, rfl⟩ | ⟨rfl, ht, rfl⟩ := decodeSchedule_ok h <;> exact ⟨decide_eq_true ht, rfl⟩
  | round p t =>
    obtain ⟨rfl, ht, rfl⟩ | ⟨rfl, ht, rfl⟩ | ⟨rfl, ht, rfl⟩ | ⟨rfl, ht, rfl⟩ := decodeRound_ok h <;>
      exact ⟨decide_eq_true ht, rfl⟩
  | padding q =>
    obtain ⟨rfl, rfl⟩ | ⟨rfl, rfl⟩ := decodePadding_ok h <;> exact ⟨rfl, rfl⟩
  | initv => injection h with h; subst h; exact ⟨rfl, rfl⟩
  | feedfwd => injection h with h; subst h; exact ⟨rfl, rfl⟩

/-- Settles O8: what is read encodes back to the code it was read from, and every encoding is read. -/
theorem decoderAcceptsExactlyTheEncodings : Obligations.DecoderAcceptsExactlyTheEncodings := by
  unfold Obligations.DecoderAcceptsExactlyTheEncodings
  refine fun c i => ⟨wf_and_encode_of_decode, ?_⟩
  rintro ⟨hwf, rfl⟩
  exact decode_encode hwf

/-! ### Which commands are rejected -/

/-- R72: a reserved code, or a payload on a command of format N. -/
def RejectedCommand (op : Byte) (payload : List Byte) : Prop :=
  4 ≤ op.toNat ∨ ((op = 0x00#8 ∨ op = 0x02#8) ∧ payload ≠ [])

/-- The four codes of R71, and the reserved ones. -/
theorem code_cases (op : Byte) :
    op = 0x00#8 ∨ op = 0x01#8 ∨ op = 0x02#8 ∨ op = 0x03#8 ∨ 4 ≤ op.toNat := by
  bv_omega

theorem not_rejected_of_decode_ok {op : Byte} {payload : List Byte} {i : Instr}
    (h : decode (.command op payload) = .ok i) : ¬ RejectedCommand op payload := by
  obtain ⟨rfl, rfl, rfl⟩ | ⟨rfl, rfl⟩ | ⟨rfl, rfl, rfl⟩ | ⟨rfl, rfl⟩ := Machine.decodeCommand_ok h <;>
    simp [RejectedCommand]

/-- A command that is not rejected is one of the four rows of the OP space. -/
theorem decode_ok_of_not_rejected {op : Byte} {payload : List Byte} (h : ¬ RejectedCommand op payload) :
    ∃ i, decode (.command op payload) = .ok i := by
  obtain ⟨hcode, hpayload⟩ := not_or.mp h
  obtain rfl | rfl | rfl | rfl | hop := code_cases op
  · obtain rfl : payload = [] := by simpa using hpayload
    exact ⟨.init, rfl⟩
  · exact ⟨.update payload, rfl⟩
  · obtain rfl : payload = [] := by simpa using hpayload
    exact ⟨.finalize, rfl⟩
  · exact ⟨.compress payload, rfl⟩
  · exact absurd hop hcode

theorem decode_error_iff (op : Byte) (payload : List Byte) :
    (∃ r, decode (.command op payload) = .error r) ↔ RejectedCommand op payload := by
  refine ⟨fun ⟨r, hr⟩ => ?_, fun h => ?_⟩
  · by_contra hnot
    obtain ⟨i, hi⟩ := decode_ok_of_not_rejected hnot
    cases hr.symm.trans hi
  · cases hd : decode (.command op payload) with
    | error r => exact ⟨r, rfl⟩
    | ok i => exact absurd h (not_rejected_of_decode_ok hd)

theorem isCommand_of_decode_command {op : Byte} {payload : List Byte} {i : Instr}
    (h : decode (.command op payload) = .ok i) : i.isCommand = true := by
  obtain ⟨-, -, rfl⟩ | ⟨-, rfl⟩ | ⟨-, -, rfl⟩ | ⟨-, rfl⟩ := Machine.decodeCommand_ok h <;> rfl

/-- Settles O9: the rejected commands are those of R72, and the command space holds host commands only. -/
theorem decoderRejectsReservedAndPayloadOnN : Obligations.DecoderRejectsReservedAndPayloadOnN := by
  unfold Obligations.DecoderRejectsReservedAndPayloadOnN
  exact fun op payload => ⟨decode_error_iff op payload, fun i => isCommand_of_decode_command⟩

/-- Settles O7: each word is looked up in the decoder's tables. -/
theorem tabledWordsDecode : Obligations.TabledWordsDecode := by
  unfold Obligations.TabledWordsDecode
  decide

end Sys2Proof

/-! PROOFS. One command as one relation: the state a command leaves and the response it gives, one constructor per
clause of the priority of conditions (spec/60_exceptions.md R181 to R187) and of the commands
(R112, R141, R142, R162). Every statement about a step is a case analysis of it. -/

namespace Sys2Proof.Machine

/-! ### A step, by the host's next action -/

theorem step_of_idle {s : State} (hh : s.host = []) : step s = .next s := by
  rw [step, hh]

theorem step_of_reset {s : State} {c : Option (Byte × List Byte)} {rest : List HostAction}
    (hh : s.host = .reset c :: rest) : step s = .next (s.withHost rest).hostReset := by
  rw [step, hh]

theorem step_of_overlap {s : State} {op op' : Byte} {p p' : List Byte} {rest : List HostAction}
    (hh : s.host = .overlap op p op' p' :: rest) : step s = .refused .overlappingCommands := by
  rw [step, hh]

section
variable {s : State} {op : Byte} {payload : List Byte} {rest : List HostAction}

theorem step_of_decode_ok {i : Instr} (hh : s.host = .command op payload :: rest)
    (hd : decode (.command op payload) = .ok i) : step s = exec i (s.withHost rest) := by
  simp only [step, hh, hd]

theorem step_of_decode_error {r : Reject} (hh : s.host = .command op payload :: rest)
    (hd : decode (.command op payload) = .error r) : step s = (s.withHost rest).rejectCommand := by
  simp only [step, hh, hd]

/-- Every command checks `FAULTED` first (R187). -/
theorem exec_of_faulted {i : Instr} (hi : i.isCommand = true) (hf : s.faulted = true) :
    exec i s = .next (s.raise .errFaulted) := by
  cases i with
  | init | update data | finalize | compress payload => exact unlessFaulted_of_faulted hf _
  | _ => cases hi

theorem step_of_faulted (hh : s.host = .command op payload :: rest) (hf : s.faulted = true) :
    step s = .next ((s.withHost rest).raise .errFaulted) := by
  cases hd : decode (.command op payload) with
  | ok i =>
    rw [step_of_decode_ok hh hd]
    exact exec_of_faulted (isCommand_of_decode_command hd) hf
  | error r =>
    rw [step_of_decode_error hh hd]
    exact unlessFaulted_of_faulted (s := s.withHost rest) hf _

theorem step_of_rejected (hh : s.host = .command op payload :: rest) (hf : s.faulted = false)
    (hr : RejectedCommand op payload) : step s = .next ((s.withHost rest).raise .errIllegalCmd) := by
  obtain ⟨r, hd⟩ := (decode_error_iff op payload).mpr hr
  rw [step_of_decode_error hh hd]
  exact unlessFaulted_of_ready (s := s.withHost rest) hf _

end

/-! ### The relation -/

/-- The command `op`, `payload` in state `s` leaves state `u` but for the response `r` it appends. -/
inductive CommandAnswer (s : State) : Byte → List Byte → State → Response → Prop
  | faulted {op : Byte} {payload : List Byte} (hf : s.faulted = true) :
      CommandAnswer s op payload s ⟨.errFaulted, []⟩
  | rejected {op : Byte} {payload : List Byte} (hf : s.faulted = false)
      (hr : RejectedCommand op payload) : CommandAnswer s op payload s ⟨.errIllegalCmd, []⟩
  | init (hf : s.faulted = false) : CommandAnswer s 0x00#8 [] s.freshContext ⟨.ok, []⟩
  | updateFinalized {data : List Byte} (hf : s.faulted = false) (hp : s.phase = .finalized) :
      CommandAnswer s 0x01#8 data s ⟨.errState, []⟩
  | update {data : List Byte} (hf : s.faulted = false) (hp : s.phase ≠ .finalized) :
      CommandAnswer s 0x01#8 data (s.absorb data) ⟨.ok, []⟩
  | finalizeFinalized (hf : s.faulted = false) (hp : s.phase = .finalized) :
      CommandAnswer s 0x02#8 [] s ⟨.errState, []⟩
  | finalize (hf : s.faulted = false) (hp : s.phase ≠ .finalized) :
      CommandAnswer s 0x02#8 [] s.close ⟨.ok, chainBytes s.close.h⟩
  | malformed {payload : List Byte} (hf : s.faulted = false)
      (hw : payloadWellSized payload = false) :
      CommandAnswer s 0x03#8 payload { s with faulted := true } ⟨.faultBlocklen, []⟩
  | compress {payload : List Byte} (hf : s.faulted = false) (hw : payloadWellSized payload = true) :
      CommandAnswer s 0x03#8 payload s
        ⟨.ok, chainBytes (compressBlocks (stateOperand payload) (blocksOperand payload))⟩

section
variable {s u : State} {op : Byte} {payload : List Byte} {rest : List HostAction} {r : Response}

/-- Every command has an answer in every state. -/
theorem exists_commandAnswer (s : State) (op : Byte) (payload : List Byte) :
    ∃ u r, CommandAnswer s op payload u r := by
  cases hf : s.faulted with
  | true => exact ⟨_, _, .faulted hf⟩
  | false =>
    by_cases hr : RejectedCommand op payload
    · exact ⟨_, _, .rejected hf hr⟩
    · obtain ⟨i, hi⟩ := decode_ok_of_not_rejected hr
      obtain ⟨rfl, rfl, -⟩ | ⟨rfl, -⟩ | ⟨rfl, rfl, -⟩ | ⟨rfl, -⟩ := decodeCommand_ok hi
      · exact ⟨_, _, .init hf⟩
      · by_cases hp : s.phase = .finalized
        · exact ⟨_, _, .updateFinalized hf hp⟩
        · exact ⟨_, _, .update hf hp⟩
      · by_cases hp : s.phase = .finalized
        · exact ⟨_, _, .finalizeFinalized hf hp⟩
        · exact ⟨_, _, .finalize hf hp⟩
      · cases hw : payloadWellSized payload with
        | true => exact ⟨_, _, .compress hf hw⟩
        | false => exact ⟨_, _, .malformed hf hw⟩

/-- The answer is the one the step gives. -/
theorem step_of_commandAnswer (hh : s.host = .command op payload :: rest)
    (ha : CommandAnswer (s.withHost rest) op payload u r) :
    step s = .next (u.respond r.status r.payload) := by
  cases ha with
  | faulted hf => exact step_of_faulted hh hf
  | rejected hf hr => exact step_of_rejected hh hf hr
  | init hf => rw [step_of_decode_ok hh rfl]; exact exec_init_of_ready hf
  | updateFinalized hf hp => rw [step_of_decode_ok hh rfl]; exact exec_update_of_finalized hf hp _
  | update hf hp => rw [step_of_decode_ok hh rfl]; exact exec_update_of_accepting ⟨hf, hp⟩ _
  | finalizeFinalized hf hp => rw [step_of_decode_ok hh rfl]; exact exec_finalize_of_finalized hf hp
  | finalize hf hp => rw [step_of_decode_ok hh rfl]; exact exec_finalize_of_accepting ⟨hf, hp⟩
  | malformed hf hw => rw [step_of_decode_ok hh rfl]; exact exec_compress_of_malformed hf hw
  | compress hf hw => rw [step_of_decode_ok hh rfl]; exact exec_compress_of_wellSized hf hw

/-- A step with a command pending answers as the relation says. -/
theorem exists_step_command (hh : s.host = .command op payload :: rest) :
    ∃ u r, CommandAnswer (s.withHost rest) op payload u r ∧
      step s = .next (u.respond r.status r.payload) := by
  obtain ⟨u, r, ha⟩ := exists_commandAnswer (s.withHost rest) op payload
  exact ⟨u, r, ha, step_of_commandAnswer hh ha⟩

/-- Every way a step answers a next state: nothing pending, a reset, or a command. -/
theorem step_next_cases {t : State} (h : step s = .next t) :
    (s.host = [] ∧ t = s) ∨
    (∃ c rest, s.host = .reset c :: rest ∧ t = (s.withHost rest).hostReset) ∨
    ∃ op payload rest u r, s.host = .command op payload :: rest ∧
      CommandAnswer (s.withHost rest) op payload u r ∧ t = u.respond r.status r.payload := by
  cases hh : s.host with
  | nil => rw [step_of_idle hh] at h; injection h with h; exact .inl ⟨rfl, h.symm⟩
  | cons a rest =>
    cases a with
    | reset c =>
      rw [step_of_reset hh] at h; injection h with h
      exact .inr (.inl ⟨c, rest, rfl, h.symm⟩)
    | command op payload =>
      obtain ⟨u, r, ha, hs⟩ := exists_step_command hh
      rw [hs] at h; injection h with h
      exact .inr (.inr ⟨op, payload, rest, u, r, rfl, ha, h.symm⟩)
    | overlap op p op' p' => rw [step_of_overlap hh] at h; cases h

/-! ### What every command leaves alone -/

theorem CommandAnswer.host_eq (ha : CommandAnswer s op payload u r) : u.host = s.host := by
  cases ha <;> rfl

theorem CommandAnswer.responses_eq (ha : CommandAnswer s op payload u r) :
    u.responses = s.responses := by
  cases ha <;> rfl

theorem CommandAnswer.scratch_eq (ha : CommandAnswer s op payload u r) : u.scratch = s.scratch := by
  cases ha <;> rfl

/-- `FAULTED` is kept or set, never cleared (R29). -/
theorem CommandAnswer.faulted_of_faulted (ha : CommandAnswer s op payload u r)
    (hf : s.faulted = true) : u.faulted = true := by
  cases ha with
  | malformed => rfl
  | _ => exact hf

/-- A response other than `OK` comes with no change of state but `FAULTED` (R186). -/
theorem CommandAnswer.state_of_ne_ok (ha : CommandAnswer s op payload u r) (hr : r.status ≠ .ok) :
    u = { s with faulted := s.faulted || decide (r.status = .faultBlocklen) } := by
  cases ha with
  | faulted | rejected | updateFinalized | finalizeFinalized => simp
  | malformed => simp
  | init | update | finalize | compress => exact absurd rfl hr

end

/-- Settles O2: the reset state does not depend on the command in progress. -/
theorem hostResetRestoresEverything : Obligations.HostResetRestoresEverything := by
  unfold Obligations.HostResetRestoresEverything
  intro s c rest hh
  exact step_of_reset hh

/-- Settles O5: a step with no action pending is the identity. -/
theorem idleEngineHoldsItsState : Obligations.IdleEngineHoldsItsState := by
  unfold Obligations.IdleEngineHoldsItsState
  intro s hh
  exact step_of_idle hh

/-- Settles O6: a refusal is no next state. -/
theorem overlappingCommandsHaveNoStep : Obligations.OverlappingCommandsHaveNoStep := by
  unfold Obligations.OverlappingCommandsHaveNoStep
  intro s op op' p p' rest hh
  refine ⟨step_of_overlap hh, fun t ht => ?_⟩
  rw [step_of_overlap hh] at ht
  cases ht

/-- Settles O10: the step hands the decoded command the state with the later actions pending. -/
theorem stepRunsDecodedCommand : Obligations.StepRunsDecodedCommand := by
  unfold Obligations.StepRunsDecodedCommand
  intro s op payload rest i hh hd
  exact step_of_decode_ok hh hd

/-- Settles O11: on an unfaulted engine a rejected code raises `ERR_ILLEGAL_CMD`, which is no fault. -/
theorem undecodableCommandIsIllegal : Obligations.UndecodableCommandIsIllegal := by
  unfold Obligations.UndecodableCommandIsIllegal
  intro s op payload rest r hh hd hf
  exact step_of_rejected hh hf ((decode_error_iff op payload).mp ⟨r, hd⟩)

/-- Settles O12: the check of `FAULTED` comes before the decoder's answer, and `ERR_FAULTED` is no fault. -/
theorem faultedEngineRefusesEveryCommand : Obligations.FaultedEngineRefusesEveryCommand := by
  unfold Obligations.FaultedEngineRefusesEveryCommand
  intro s op payload rest hh hf
  exact step_of_faulted hh hf

/-- Settles O3: an idle step keeps the state and a command never clears `FAULTED`. -/
theorem onlyResetClearsFaulted : Obligations.OnlyResetClearsFaulted := by
  unfold Obligations.OnlyResetClearsFaulted
  intro s t h hf hclear
  obtain ⟨-, rfl⟩ | ⟨c, rest, hh, -⟩ | ⟨op, payload, rest, u, r, -, ha, rfl⟩ := step_next_cases h
  · exact absurd (hf.symm.trans hclear) (by decide)
  · exact ⟨c, rest, hh⟩
  · exact absurd ((ha.faulted_of_faulted hf).symm.trans hclear) (by decide)

/-- The one command that sets `FAULTED` (R29, R183). -/
theorem CommandAnswer.malformed_of_faults {s u : State} {op : Byte} {payload : List Byte} {r : Response}
    (ha : CommandAnswer s op payload u r) (hf : s.faulted = false) (hset : u.faulted = true) :
    op = 0x03#8 ∧ payloadWellSized payload = false := by
  cases ha with
  | malformed _ hw => exact ⟨rfl, hw⟩
  | _ => exact absurd (hf.symm.trans hset) (by decide)

/-- Settles O4: neither an idle step nor a reset sets `FAULTED`, and of the commands only the malformed
COMPRESS. -/
theorem onlyMalformedCompressSetsFaulted : Obligations.OnlyMalformedCompressSetsFaulted := by
  unfold Obligations.OnlyMalformedCompressSetsFaulted
  intro s t h hf hset
  obtain ⟨-, rfl⟩ | ⟨c, rest, hh, rfl⟩ | ⟨op, payload, rest, u, r, hh, ha, rfl⟩ := step_next_cases h
  · exact absurd (hf.symm.trans hset) (by decide)
  · cases hset
  · obtain ⟨rfl, hw⟩ := ha.malformed_of_faults hf hset
    exact ⟨payload, rest, hh, (payloadWellSized_eq_false_iff payload).mp hw⟩

/-- Settles O33: a reset leaves the idle value and no command touches the working storage. -/
theorem workingStorageStaysIdle : Obligations.WorkingStorageStaysIdle := by
  unfold Obligations.WorkingStorageStaysIdle
  intro s t hidle h
  obtain ⟨-, rfl⟩ | ⟨c, rest, -, rfl⟩ | ⟨op, payload, rest, u, r, -, ha, rfl⟩ := step_next_cases h
  · exact hidle
  · rfl
  · exact ha.scratch_eq.trans hidle

/-! ### The status and the payload of a response -/

/-- The first condition of R187 that holds, else `OK`. -/
def priorityStatus (s : State) (op : Byte) (payload : List Byte) : Status :=
  if s.faulted = true then .errFaulted
  else if 4 ≤ op.toNat ∨ ((op = 0x00#8 ∨ op = 0x02#8) ∧ payload ≠ []) then .errIllegalCmd
  else if s.phase = .finalized ∧ (op = 0x01#8 ∨ op = 0x02#8) then .errState
  else if op = 0x03#8 ∧ ¬ (20 ≤ payload.length ∧ (payload.length - 20) % 64 = 0) then .faultBlocklen
  else .ok

theorem CommandAnswer.status_eq {s u : State} {op : Byte} {payload : List Byte} {r : Response}
    (ha : CommandAnswer s op payload u r) : r.status = priorityStatus s op payload := by
  unfold priorityStatus
  cases ha with
  | faulted hf => rw [if_pos hf]
  | rejected hf hr => rw [if_neg (by simp [hf])]; exact (if_pos hr).symm
  | init hf => simp [hf]
  | updateFinalized hf hp => simp [hf, hp]
  | update hf hp => simp [hf, hp]
  | finalizeFinalized hf hp => simp [hf, hp]
  | finalize hf hp => simp [hf, hp]
  | malformed hf hw => simp [hf, (payloadWellSized_eq_false_iff payload).mp hw]
  | compress hf hw => simp [hf, (payloadWellSized_iff payload).mp hw]

/-- Settles O13: each clause of the answer has the status its conditions select. -/
theorem statusFollowsThePriority : Obligations.StatusFollowsThePriority := by
  unfold Obligations.StatusFollowsThePriority
  intro s op payload rest hh
  obtain ⟨u, r, ha, hs⟩ := exists_step_command hh
  exact ⟨_, r, hs, by rw [State.respond_responses, ha.responses_eq]; rfl, ha.status_eq⟩

/-- Only an executed FINALIZE or COMPRESS returns bytes, and then 20 (R75). -/
theorem CommandAnswer.payload_length {s u : State} {op : Byte} {payload : List Byte} {r : Response}
    (ha : CommandAnswer s op payload u r) :
    r.payload.length = if r.status = .ok ∧ (op = 0x02#8 ∨ op = 0x03#8) then 20 else 0 := by
  cases ha with
  | finalize | compress => simp
  | faulted | rejected | init | updateFinalized | update | finalizeFinalized | malformed => simp

/-- Settles O14: a command's step consumes the action and appends the one response of its answer. -/
theorem everyCommandGivesOneResponse : Obligations.EveryCommandGivesOneResponse := by
  unfold Obligations.EveryCommandGivesOneResponse
  intro s op payload rest hh
  obtain ⟨u, r, ha, hs⟩ := exists_step_command hh
  exact ⟨_, r, hs, ha.host_eq, by rw [State.respond_responses, ha.responses_eq]; rfl, ha.payload_length⟩

/-- Settles O15: the response named is the one the command appended, and its clause changes no more. -/
theorem refusedCommandWritesNothingElse : Obligations.RefusedCommandWritesNothingElse := by
  unfold Obligations.RefusedCommandWritesNothingElse
  intro s t op payload rest r hh h hresp hr
  obtain ⟨u, r', ha, hs⟩ := exists_step_command hh
  rw [hs] at h
  injection h with h
  subst h
  obtain rfl : r' = r := by
    rw [State.respond_responses, ha.responses_eq] at hresp
    simpa using hresp
  rw [ha.state_of_ne_ok hr]
  rfl

/-! ### Two engines alike -/

theorem SameEngine.respond {s s' : State} (he : SameEngine s s') (st : Status) (p : List Byte) :
    SameEngine (s.respond st p) (s'.respond st p) :=
  ⟨he.h, he.buf, he.len, he.phase, he.faulted⟩

theorem SameEngine.withHost {s s' : State} (he : SameEngine s s') (rest : List HostAction) :
    SameEngine (s.withHost rest) (s'.withHost rest) :=
  ⟨he.h, he.buf, he.len, he.phase, he.faulted⟩

theorem SameEngine.close {s s' : State} (he : SameEngine s s') : SameEngine s.close s'.close :=
  ⟨by rw [State.close_h, State.close_h, he.h, he.buf, he.len], rfl, he.len, rfl, he.faulted⟩

theorem SameEngine.absorb {s s' : State} (he : SameEngine s s') (data : List Byte) :
    SameEngine (s.absorb data) (s'.absorb data) :=
  ⟨by rw [State.absorb_h, State.absorb_h, he.h, he.buf], by rw [State.absorb_buf, State.absorb_buf, he.buf],
    by rw [State.absorb_len, State.absorb_len, he.len], rfl, he.faulted⟩

/-- The same command on the same engine state gives the same response and again the same engine state (R20). -/
theorem CommandAnswer.alike {s s' u : State} {op : Byte} {payload : List Byte} {r : Response}
    (ha : CommandAnswer s op payload u r) (he : SameEngine s s') :
    ∃ u', CommandAnswer s' op payload u' r ∧ SameEngine u u' := by
  have hfaulted := he.faulted
  have hphase := he.phase
  cases ha with
  | faulted hf => exact ⟨_, .faulted (hfaulted ▸ hf), he⟩
  | rejected hf hr => exact ⟨_, .rejected (hfaulted ▸ hf) hr, he⟩
  | init hf => exact ⟨_, .init (hfaulted ▸ hf), ⟨rfl, rfl, rfl, rfl, hfaulted⟩⟩
  | updateFinalized hf hp => exact ⟨_, .updateFinalized (hfaulted ▸ hf) (hphase ▸ hp), he⟩
  | update hf hp => exact ⟨_, .update (hfaulted ▸ hf) (hphase ▸ hp), he.absorb _⟩
  | finalizeFinalized hf hp => exact ⟨_, .finalizeFinalized (hfaulted ▸ hf) (hphase ▸ hp), he⟩
  | finalize hf hp =>
    rw [he.close.h]
    exact ⟨_, .finalize (hfaulted ▸ hf) (hphase ▸ hp), he.close⟩
  | malformed hf hw => exact ⟨_, .malformed (hfaulted ▸ hf) hw, ⟨he.h, he.buf, he.len, hphase, rfl⟩⟩
  | compress hf hw => exact ⟨_, .compress (hfaulted ▸ hf) hw, he⟩

/-- Settles O60: a reset leaves the same engine state whatever was before, and a command answers from the engine
state alone. -/
theorem stepKeepsEnginesAlike : Obligations.StepKeepsEnginesAlike := by
  unfold Obligations.StepKeepsEnginesAlike
  intro s s' t he hhost h
  obtain ⟨hh, rfl⟩ | ⟨c, rest, hh, rfl⟩ | ⟨op, payload, rest, u, r, hh, ha, rfl⟩ := step_next_cases h
  · exact ⟨s', [], step_of_idle (hhost ▸ hh), he, hhost, (List.append_nil _).symm,
      (List.append_nil _).symm⟩
  · exact ⟨_, [], step_of_reset (hhost ▸ hh), ⟨rfl, rfl, rfl, rfl, rfl⟩, rfl,
      (List.append_nil _).symm, (List.append_nil _).symm⟩
  · obtain ⟨u', ha', hu⟩ := ha.alike (he.withHost rest)
    exact ⟨_, [r], step_of_commandAnswer (hhost ▸ hh) ha', hu.respond _ _,
      ha.host_eq.trans ha'.host_eq.symm, congrArg (· ++ [r]) ha.responses_eq,
      congrArg (· ++ [r]) ha'.responses_eq⟩

/-- The run form: engines alike stay alike and give equal answers for any number of steps. -/
theorem run_keeps_engines_alike {n : Nat} {s s' t : State} (he : SameEngine s s')
    (hhost : s.host = s'.host) (h : Host.Core.run core n s = .next t) :
    ∃ (t' : State) (answers : List Response), Host.Core.run core n s' = .next t' ∧ SameEngine t t' ∧
      t.responses = s.responses ++ answers ∧ t'.responses = s'.responses ++ answers := by
  induction n generalizing s s' with
  | zero =>
    injection h with h
    subst h
    exact ⟨s', [], rfl, he, (List.append_nil _).symm, (List.append_nil _).symm⟩
  | succ n ih =>
    obtain ⟨u, hu, hrun⟩ := run_succ_next h
    obtain ⟨u', as, hu', heu, hhu, hr, hr'⟩ := stepKeepsEnginesAlike s s' u he hhost hu
    obtain ⟨t', bs, hrun', het, hrt, hrt'⟩ := ih heu hhu hrun
    exact ⟨t', as ++ bs, (run_succ hu' n).trans hrun', het, by rw [hrt, hr, List.append_assoc],
      by rw [hrt', hr', List.append_assoc]⟩

/-- A reset, or an INIT that both accept, leaves the same engine state on both, whatever they held (R214). -/
theorem step_erases_context {s s' : State} (hhost : s.host = s'.host)
    (hfirst : (∃ c rest, s.host = .reset c :: rest) ∨
      (s.faulted = false ∧ s'.faulted = false ∧ ∃ rest, s.host = .command 0x00#8 [] :: rest)) :
    ∃ (u u' : State) (answers : List Response), step s = .next u ∧ step s' = .next u' ∧
      SameEngine u u' ∧ u.host = u'.host ∧ u.responses = s.responses ++ answers ∧
      u'.responses = s'.responses ++ answers := by
  obtain ⟨c, rest, hh⟩ | ⟨hf, hf', rest, hh⟩ := hfirst
  · exact ⟨_, _, [], step_of_reset hh, step_of_reset (hhost ▸ hh), ⟨rfl, rfl, rfl, rfl, rfl⟩, rfl,
      (List.append_nil _).symm, (List.append_nil _).symm⟩
  · have hh' : s'.host = .command 0x00#8 [] :: rest := hhost ▸ hh
    exact ⟨_, _, [⟨.ok, []⟩], step_of_commandAnswer hh (.init hf), step_of_commandAnswer hh' (.init hf'),
      ⟨rfl, rfl, rfl, rfl, hf.trans hf'.symm⟩, rfl, rfl, rfl⟩

/-- Settles O55: after the first step the engines are alike, and they stay so. -/
theorem nothingLeaksPastInitOrReset : Obligations.NothingLeaksPastInitOrReset := by
  unfold Obligations.NothingLeaksPastInitOrReset
  intro n s s' t hhost hfirst h
  obtain ⟨u, u', as, hu, hu', heu, hhu, hr, hr'⟩ := step_erases_context hhost hfirst
  rw [run_succ hu] at h
  obtain ⟨t', bs, hrun', het, hrt, hrt'⟩ := run_keeps_engines_alike heu hhu h
  exact ⟨t', as ++ bs, (run_succ hu' n).trans hrun', het, by rw [hrt, hr, List.append_assoc],
    by rw [hrt', hr', List.append_assoc]⟩

/-! ### The phase -/

/-- The state in a given phase, all else as it was. -/
def State.withPhase (s : State) (p : Phase) : State := { s with phase := p }

/-- In `Empty` and in `Absorbing` a command gives the same response; the phase is the one thing that can differ
after it, and only if the command leaves it (R28). -/
theorem CommandAnswer.absorbing_of_empty {s u : State} {op : Byte} {payload : List Byte} {r : Response}
    (ha : CommandAnswer s op payload u r) (hempty : s.phase = .empty) :
    ∃ u', CommandAnswer (s.withPhase .absorbing) op payload u' r ∧
      (u' = u ∨ (u.phase = .empty ∧ u' = u.withPhase .absorbing)) := by
  have hopen : (s.withPhase .absorbing).phase ≠ .finalized := nofun
  cases ha with
  | faulted hf => exact ⟨_, .faulted hf, .inr ⟨hempty, rfl⟩⟩
  | rejected hf hr => exact ⟨_, .rejected hf hr, .inr ⟨hempty, rfl⟩⟩
  | init hf => exact ⟨_, .init hf, .inl rfl⟩
  | update hf hp => exact ⟨_, .update hf hopen, .inl rfl⟩
  | finalize hf hp => exact ⟨_, .finalize hf hopen, .inl rfl⟩
  | malformed hf hw => exact ⟨_, .malformed hf hw, .inr ⟨hempty, rfl⟩⟩
  | compress hf hw => exact ⟨_, .compress hf hw, .inr ⟨hempty, rfl⟩⟩
  | updateFinalized hf hp | finalizeFinalized hf hp => cases hempty.symm.trans hp

/-- Settles O56: both phases accept the same commands with the same answers. -/
theorem emptyAndAbsorbingAnswerAlike : Obligations.EmptyAndAbsorbingAnswerAlike := by
  unfold Obligations.EmptyAndAbsorbingAnswerAlike
  intro s t hempty h
  obtain ⟨hh, rfl⟩ | ⟨c, rest, hh, rfl⟩ | ⟨op, payload, rest, u, r, hh, ha, rfl⟩ := step_next_cases h
  · exact ⟨_, step_of_idle hh, rfl, .inr ⟨hempty, rfl⟩⟩
  · exact ⟨_, step_of_reset hh, rfl, .inl rfl⟩
  · obtain ⟨u', ha', hu⟩ := ha.absorbing_of_empty hempty
    refine ⟨_, step_of_commandAnswer (s := s.withPhase .absorbing) hh ha',
      congrArg (· ++ [r]) (ha'.responses_eq.trans ha.responses_eq.symm), ?_⟩
    obtain rfl | ⟨hphase, rfl⟩ := hu
    · exact .inl rfl
    · exact .inr ⟨hphase, rfl⟩

/-- In `Finalized` every command but INIT leaves the context (R33, R163). -/
theorem CommandAnswer.context_of_finalized {s u : State} {op : Byte} {payload : List Byte} {r : Response}
    (ha : CommandAnswer s op payload u r) (hp : s.phase = .finalized)
    (hinit : ¬ (op = 0x00#8 ∧ payload = [])) :
    u.h = s.h ∧ u.buf = s.buf ∧ u.len = s.len ∧ u.phase = .finalized := by
  cases ha with
  | init => exact absurd ⟨rfl, rfl⟩ hinit
  | update _ hopen | finalize _ hopen => exact absurd hp hopen
  | faulted | rejected | updateFinalized | finalizeFinalized | malformed | compress =>
    exact ⟨rfl, rfl, rfl, hp⟩

/-- Settles O57: with INIT and reset excluded, what is left is an idle step or a command that keeps the context. -/
theorem finalizedContextIsFrozen : Obligations.FinalizedContextIsFrozen := by
  unfold Obligations.FinalizedContextIsFrozen
  intro s t hp h hinit hreset
  obtain ⟨-, rfl⟩ | ⟨c, rest, hh, -⟩ | ⟨op, payload, rest, u, r, hh, ha, rfl⟩ := step_next_cases h
  · exact ⟨rfl, rfl, rfl, hp⟩
  · exact absurd hh (hreset c rest)
  · refine ha.context_of_finalized hp ?_
    rintro ⟨rfl, rfl⟩
    exact hinit rest hh

end Sys2Proof.Machine

/-! PROOFS. The word and byte primitives and the serialisations: rotates and round functions by bit, words written
and read back (spec/00_scope.md R11; spec/20_memory.md R53; spec/30_encoding.md R77; spec/40_compress.md R116). -/

namespace Sys2Proof.Machine

/-! ### Rotates -/

/-- The two halves of a rotate do not overlap, so joining them is adding them. -/
theorem rotl_toNat {n : Nat} (h : n < 32) (x : Word) :
    (rotl n x).toNat = x.toNat * 2 ^ n % 2 ^ 32 + x.toNat / 2 ^ (32 - n) := by
  have hpow : 2 ^ (32 - n) * 2 ^ n = 2 ^ 32 := by rw [← Nat.pow_add, Nat.sub_add_cancel h.le]
  have hhigh : x.toNat * 2 ^ n % 2 ^ 32 = (x.toNat % 2 ^ (32 - n)) <<< n := by
    rw [← hpow, Nat.mul_mod_mul_right, Nat.shiftLeft_eq]
  have hlow : x.toNat / 2 ^ (32 - n) < 2 ^ n := by
    rw [Nat.div_lt_iff_lt_mul (Nat.two_pow_pos _), Nat.mul_comm, hpow]
    exact x.isLt
  rw [rotl, BitVec.toNat_or, BitVec.toNat_shiftLeft, BitVec.toNat_ushiftRight, Nat.shiftLeft_eq,
    Nat.shiftRight_eq_div_pow, hhigh, Nat.shiftLeft_add_eq_or_of_lt hlow]

theorem rotl_getLsbD {n i : Nat} (h : n < 32) (hi : i < 32) (x : Word) :
    (rotl n x).getLsbD ((i + n) % 32) = x.getLsbD i := by
  rw [rotl_eq_rotateLeft h, BitVec.getLsbD_rotateLeft, Nat.mod_eq_of_lt h]
  obtain hwrap | hwrap := Nat.lt_or_ge (i + n) 32
  · rw [Nat.mod_eq_of_lt hwrap]
    simp [hwrap]
  · have hmod : (i + n) % 32 = i + n - 32 := by omega
    have hlt : i + n - 32 < n := by omega
    have hback : 32 - n + (i + n - 32) = i := by omega
    simp [hmod, hlt, hback]

/-- Settles O34: the value is the sum of the two halves, the bits those of the library's rotate. -/
theorem rotateMovesEveryBit : Obligations.RotateMovesEveryBit := by
  unfold Obligations.RotateMovesEveryBit
  exact fun n x _ h => ⟨rotl_toNat h x, fun i hi => rotl_getLsbD h hi x⟩

/-! ### Round functions by bit -/

theorem fCh_getLsbD (b c d : Word) {i : Nat} (hi : i < 32) :
    (fCh b c d).getLsbD i = ((b.getLsbD i && c.getLsbD i) || (!b.getLsbD i && d.getLsbD i)) := by
  simp [fCh, hi]

theorem fParity_getLsbD (b c d : Word) (i : Nat) :
    (fParity b c d).getLsbD i = ((b.getLsbD i ^^ c.getLsbD i) ^^ d.getLsbD i) := by
  simp [fParity]

theorem fMaj_getLsbD (b c d : Word) (i : Nat) :
    (fMaj b c d).getLsbD i =
      ((b.getLsbD i && c.getLsbD i) || (b.getLsbD i && d.getLsbD i) || (c.getLsbD i && d.getLsbD i)) := by
  simp [fMaj]

/-- Settles O35: each function is a Boolean function of the three bits, compared row by row. -/
theorem roundFunctionTruthTables : Obligations.RoundFunctionTruthTables := by
  unfold Obligations.RoundFunctionTruthTables
  intro b c d i hi
  rw [fCh_getLsbD b c d hi, fParity_getLsbD, fMaj_getLsbD]
  generalize b.getLsbD i = x
  generalize c.getLsbD i = y
  generalize d.getLsbD i = z
  revert x y z
  decide

/-! ### Words written and read back -/

/-- The state operand read back: each word is read where it was written (R77). -/
theorem stateOperand_chainBytes_append (x : Chain) (more : List Byte) :
    stateOperand (chainBytes x ++ more) = x := by
  have hskip : ∀ (v : Word) (q : List Byte) (addr : Nat),
      be32At (bytes32 v ++ q) (4 + addr) = be32At q addr := fun v q => be32At_append_right (bytes32 v) q
  rw [chainBytes, List.append_assoc, List.append_assoc, List.append_assoc, List.append_assoc]
  change Chain.mk (be32At _ 0) (be32At _ (4 + 0)) (be32At _ (4 + (4 + 0))) (be32At _ (4 + (4 + (4 + 0))))
    (be32At _ (4 + (4 + (4 + (4 + 0))))) = x
  simp only [hskip, be32At_bytes32]

/-- `bytes32` writes the four bytes a big-endian number was made of. -/
theorem bytes32_of_toNat {v : Word} {b0 b1 b2 b3 : Byte}
    (h : v.toNat = b0.toNat * 2 ^ 24 + b1.toNat * 2 ^ 16 + b2.toNat * 2 ^ 8 + b3.toNat) :
    bytes32 v = [b0, b1, b2, b3] := by
  have h0 := b0.isLt
  have h1 := b1.isLt
  have h2 := b2.isLt
  have h3 := b3.isLt
  have hbyte : ∀ (k : Nat) (b : Byte), v.toNat / 2 ^ k % 2 ^ 8 = b.toNat → v.extractLsb' k 8 = b := by
    intro k b hb
    apply BitVec.eq_of_toNat_eq
    rw [BitVec.extractLsb'_toNat, Nat.shiftRight_eq_div_pow, hb]
  rw [bytes32, hbyte 24 b0 (by omega), hbyte 16 b1 (by omega), hbyte 8 b2 (by omega),
    hbyte 0 b3 (by omega)]

theorem be32At_toNat (p : List Byte) (i : Nat) :
    (be32At p i).toNat = (byteAt p i).toNat * 2 ^ 24 + (byteAt p (i + 1)).toNat * 2 ^ 16 +
      (byteAt p (i + 2)).toNat * 2 ^ 8 + (byteAt p (i + 3)).toNat := by
  have h0 := (byteAt p i).isLt
  have h1 := (byteAt p (i + 1)).isLt
  have h2 := (byteAt p (i + 2)).isLt
  have h3 := (byteAt p (i + 3)).isLt
  rw [be32At, BitVec.toNat_ofNat, Nat.mod_eq_of_lt (by omega)]

theorem byteAt_of_lt {p : List Byte} {i : Nat} (h : i < p.length) : byteAt p i = p[i] := by
  simp [byteAt, h]

/-- A word read from a sequence and written again is the four bytes read. -/
theorem bytes32_be32At_append_drop {p : List Byte} {i : Nat} (h : i + 4 ≤ p.length) :
    bytes32 (be32At p i) ++ p.drop (i + 4) = p.drop i := by
  rw [bytes32_of_toNat (be32At_toNat p i), byteAt_of_lt (by omega), byteAt_of_lt (by omega),
    byteAt_of_lt (by omega), byteAt_of_lt (by omega), List.drop_eq_getElem_cons (i := i) (by omega),
    List.drop_eq_getElem_cons (i := i + 1) (by omega), List.drop_eq_getElem_cons (i := i + 1 + 1) (by omega),
    List.drop_eq_getElem_cons (i := i + 1 + 1 + 1) (by omega)]
  rfl

theorem chainBytes_stateOperand_append {payload : List Byte} (h : 20 ≤ payload.length) :
    chainBytes (stateOperand payload) ++ blocksOperand payload = payload := by
  simp only [chainBytes, stateOperand, blocksOperand, Config.digestBytes, List.append_assoc]
  rw [bytes32_be32At_append_drop (i := 16) (by omega), bytes32_be32At_append_drop (i := 12) (by omega),
    bytes32_be32At_append_drop (i := 8) (by omega), bytes32_be32At_append_drop (i := 4) (by omega),
    bytes32_be32At_append_drop (i := 0) (by omega), List.drop_zero]

/-- Settles O39: both directions, word by word. -/
theorem stateSerialisationRoundTrips : Obligations.StateSerialisationRoundTrips :=
  ⟨stateOperand_chainBytes_append, fun _ => chainBytes_stateOperand_append⟩

/-! ### The bit count -/

theorem bitcount_toNat (len : Counter) : (bitcount len).toNat = len.toNat * 8 % 2 ^ 64 := by
  rw [bitcount_eq, BitVec.toNat_ofNat]

theorem bitcount_eq_shiftLeft (len : Counter) : bitcount len = len <<< 3 := by
  apply BitVec.eq_of_toNat_eq
  rw [bitcount_toNat, BitVec.toNat_shiftLeft, Nat.shiftLeft_eq]

/-- Settles O41: the bit count is a shift by three. -/
theorem bitcountShiftsByThree : Obligations.BitcountShiftsByThree := by
  unfold Obligations.BitcountShiftsByThree
  refine fun len => ⟨bitcount_toNat len, fun i hi => ?_, fun i hi => ?_⟩
  · rw [bitcount_eq_shiftLeft, BitVec.getLsbD_shiftLeft]
    simp [hi]
  · have hlt : i + 3 < 64 := by omega
    rw [bitcount_eq_shiftLeft, BitVec.getLsbD_shiftLeft]
    simp [hlt]

/-- Byte `k` of a 64-bit number, from the most significant (R53). -/
theorem bytes64_getElem? (v : Counter) {k : Nat} (hk : k < 8) :
    (bytes64 v)[k]? = some (BitVec.ofNat 8 (v.toNat / 2 ^ (56 - 8 * k))) := by
  rw [← Nat.shiftRight_eq_div_pow]
  match k, hk with
  | 0, _ | 1, _ | 2, _ | 3, _ | 4, _ | 5, _ | 6, _ | 7, _ => rfl

end Sys2Proof.Machine

/-! PROOFS. The padded tail, the PAD steps that make it, and what the internal steps leave alone
(spec/30_encoding.md R78, R79, R83; spec/42_finalize.md R160, R161; spec/10_state.md R23, R24). -/

namespace Sys2Proof.Machine

/-! ### The layout of the padded tail -/

/-- The padded tail with its zero fill and its bit count written out (R160). -/
theorem pad_eq {buf : List Byte} (h : buf.length ≤ 63) (len : Counter) :
    pad buf len = buf ++ [0x80#8] ++ List.replicate ((119 - buf.length) % 64) 0#8 ++
      bytes64 (BitVec.ofNat 64 (len.toNat * 8)) := by
  rw [pad, padWith, bitcount_eq, zeroFill, Nat.mod_eq_of_lt (show buf.length < 64 by omega), marker, zeros]

theorem pad_length (buf : List Byte) (len : Counter) :
    (pad buf len).length = buf.length + 1 + zeroFill buf.length + 8 := padWith_length _ buf len

/-- One block when the fill leaves room for the marker and the bit count, else two (R160). -/
theorem pad_length_of_short {buf : List Byte} (h : buf.length ≤ 63) (len : Counter) :
    (pad buf len).length = if buf.length ≤ 55 then 64 else 128 := by
  rw [pad_length]
  split
  · next hs => rw [zeroFill_of_short hs]; omega
  · next hl => rw [zeroFill_of_long (by omega) h]; omega

theorem pad_take (buf : List Byte) (len : Counter) : (pad buf len).take buf.length = buf := by
  rw [pad, padWith, List.append_assoc, List.append_assoc, List.take_left]

theorem pad_getElem?_marker (buf : List Byte) (len : Counter) :
    (pad buf len)[buf.length]? = some 0x80#8 := by
  rw [pad, padWith, List.append_assoc, List.append_assoc, List.getElem?_append_right (Nat.le_refl _),
    Nat.sub_self]
  rfl

/-- Between the marker and the bit count stand zeros. -/
theorem pad_getElem?_zero {buf : List Byte} {len : Counter} {i : Nat} (hlo : buf.length < i)
    (hhi : i < (pad buf len).length - 8) : (pad buf len)[i]? = some 0x00#8 := by
  rw [pad_length] at hhi
  have hmark : (buf ++ [marker]).length = buf.length + 1 := by
    rw [List.length_append, List.length_singleton]
  rw [pad, padWith, List.getElem?_append_left (by rw [List.length_append, hmark, zeros_length]; omega),
    List.getElem?_append_right (by omega), zeros, List.getElem?_replicate, if_pos (by omega)]

theorem pad_drop (buf : List Byte) (len : Counter) :
    (pad buf len).drop ((pad buf len).length - 8) = bytes64 (bitcount len) := by
  rw [pad_length, pad, padWith]
  refine List.drop_left' ?_
  simp only [List.length_append, List.length_singleton, zeros_length]
  omega

/-- Settles O42: the parts of the tail in order. -/
theorem paddedTailLayout : Obligations.PaddedTailLayout := by
  unfold Obligations.PaddedTailLayout
  intro buf len h
  refine ⟨pad_length_of_short h len, pad_take buf len, pad_getElem?_marker buf len,
    fun i hlo hhi => pad_getElem?_zero hlo hhi, ?_⟩
  rw [pad_drop, ← bitcount_toNat, BitVec.ofNat_toNat, BitVec.setWidth_eq]

/-- Settles O40: the last 8 bytes of whole blocks begin at 56 mod 64, and they are the bit count's bytes. -/
theorem lengthFieldIsBigEndian : Obligations.LengthFieldIsBigEndian := by
  unfold Obligations.LengthFieldIsBigEndian
  refine ⟨fun buf len k _ hk => ⟨?_, ?_⟩, by decide⟩
  · have hmod := pad_length_mod buf len
    have hlen := pad_length buf len
    omega
  · rw [← List.getElem?_drop, pad_drop, bytes64_getElem? _ hk, bitcount_toNat]

/-! ### The padding selector -/

theorem paddingSelector_of_short {r : Nat} (h : r ≤ 55) : paddingSelector r = 0#1 := if_pos h

theorem paddingSelector_of_long {r : Nat} (h : 56 ≤ r) : paddingSelector r = 1#1 := if_neg (by omega)

/-- Bits 5 to 3 of a fill count are the count divided by 8. -/
theorem fill_extractLsb'_eq_seven_iff {r : Nat} (h : r ≤ 63) :
    (BitVec.ofNat 6 r).extractLsb' 3 3 = 7#3 ↔ 56 ≤ r := by
  rw [← BitVec.toNat_inj, BitVec.extractLsb'_toNat, BitVec.toNat_ofNat, BitVec.toNat_ofNat,
    Nat.shiftRight_eq_div_pow]
  omega

/-- Settles O43: the selector and the number of blocks change at the same fill, 56. -/
theorem paddingSelectorCountsBlocks : Obligations.PaddingSelectorCountsBlocks := by
  unfold Obligations.PaddingSelectorCountsBlocks
  intro buf len h
  rw [fill_extractLsb'_eq_seven_iff h, pad_length_of_short h]
  obtain hs | hl := Nat.lt_or_ge buf.length 56
  · rw [paddingSelector_of_short (by omega), if_pos (by omega)]
    exact ⟨⟨nofun, by omega⟩, rfl⟩
  · rw [paddingSelector_of_long hl, if_neg (by omega)]
    exact ⟨⟨fun _ => hl, fun _ => rfl⟩, rfl⟩

/-! ### The PAD steps -/

theorem exec_pad1_of_short {s : State} (h : s.buf.length ≤ 55) :
    exec .pad1 s = .next (s.withScratch (s.scratch.pad1 s.buf s.len)) := if_pos h

theorem exec_pad2_of_long {s : State} (h : 56 ≤ s.buf.length) :
    exec .pad2 s = .next (s.withScratch (s.scratch.pad2 s.buf s.len)) := if_pos h

/-- The tail of the selected PAD step is the one FINALIZE compresses (R161). -/
theorem padWith_short_eq_pad {buf : List Byte} (h : buf.length ≤ 55) (len : Counter) :
    padWith (55 - buf.length) buf len = pad buf len := by
  rw [pad, zeroFill_of_short h]

theorem padWith_long_eq_pad {buf : List Byte} (hlo : 56 ≤ buf.length) (hhi : buf.length ≤ 63)
    (len : Counter) : padWith (119 - buf.length) buf len = pad buf len := by
  rw [pad, zeroFill_of_long hlo hhi]

/-- Settles O29: the working storage's tail, its bit count in the form of R79. -/
theorem padStepsMakeTheTail : Obligations.PadStepsMakeTheTail := by
  unfold Obligations.PadStepsMakeTheTail
  intro s
  rw [← bitcount_eq]
  refine ⟨fun h => ⟨_, exec_pad1_of_short h, rfl, ?_⟩, fun hlo hhi => ⟨_, exec_pad2_of_long hlo, rfl, ?_⟩⟩
  · rw [padWith_length]; omega
  · rw [padWith_length]; omega

/-- The PAD step the selector picks completes, and leaves in `T` the padded tail. -/
theorem exists_exec_selected_pad {s : State} (h : s.buf.length ≤ 63) :
    ∃ u : State, exec (if s.buf.length ≤ 55 then .pad1 else .pad2) s = .next u ∧
      u.scratch.tail = pad s.buf s.len := by
  split
  · next hs => exact ⟨_, exec_pad1_of_short hs, padWith_short_eq_pad hs _⟩
  · next hl =>
    have hlo : 56 ≤ s.buf.length := by omega
    exact ⟨_, exec_pad2_of_long hlo, padWith_long_eq_pad hlo h _⟩

/-- Settles O30: the selected step's tail is the padded tail, and FINALIZE compresses that. -/
theorem finalizeCompressesTheSelectedTail : Obligations.FinalizeCompressesTheSelectedTail := by
  unfold Obligations.FinalizeCompressesTheSelectedTail
  intro s hf hp h
  obtain ⟨u, hu, htail⟩ := exists_exec_selected_pad h
  refine ⟨u, _, hu, exec_finalize_of_accepting ⟨hf, hp⟩, ?_, ?_⟩
  · rw [State.respond_h, State.close_h, htail]
  · rw [htail, pad_length_of_short h]

/-! ### Internal steps stop or write the working storage -/

/-- Settles O31: each step's own check of its range. -/
theorem unselectedInternalStepsStop : Obligations.UnselectedInternalStepsStop := by
  unfold Obligations.UnselectedInternalStepsStop
  exact fun s t => ⟨fun h => if_neg (by omega), fun h => if_neg h, fun h => if_neg (by omega),
    fun h => if_neg h, fun h => if_neg h, fun h => if_neg h, fun h => if_neg (by omega),
    fun h => if_neg (by omega)⟩

/-- A step that stops outside its range and answers was inside it. -/
theorem eq_of_guarded_next {c : Prop} [Decidable c] {t u : State} {f : Fault}
    (h : (if c then .next u else .fault f : Host.Outcome State Fault Refusal) = .next t) : u = t := by
  split at h
  · injection h
  · cases h

/-- An internal step that answers replaced the working storage and nothing else (R23, R24). -/
theorem exec_internal_next {i : Instr} {s t : State} (hi : i.isCommand = false)
    (h : exec i s = .next t) : ∃ sc, s.withScratch sc = t := by
  cases i with
  | loadw t | sched t | roundCh t | roundPar1 t | roundMaj t | roundPar2 t =>
    exact ⟨_, eq_of_guarded_next h⟩
  | pad1 | pad2 => exact ⟨_, eq_of_guarded_next h⟩
  | initv | feedfwd => injection h with h; exact ⟨_, h⟩
  | init | update data | finalize | compress payload => cases hi

/-- Settles O32: every internal step's next state is the old one with new working storage. -/
theorem internalStepsWriteWorkingStorageOnly : Obligations.InternalStepsWriteWorkingStorageOnly := by
  unfold Obligations.InternalStepsWriteWorkingStorageOnly
  intro i s t hi h
  obtain ⟨sc, rfl⟩ := exec_internal_next hi h
  rfl

end Sys2Proof.Machine

/-! PROOFS. The commands one by one, on an unfaulted engine (spec/40_compress.md R112; spec/41_streaming.md R140 to
R144; spec/42_finalize.md R162; spec/60_exceptions.md R183; spec/70_reset_and_hazards.md R211). -/

namespace Sys2Proof.Machine

/-! ### INIT and reset -/

/-- Settles O16: no phase is checked, and the fresh context is that of R141. -/
theorem initStartsFreshContext : Obligations.InitStartsFreshContext := by
  unfold Obligations.InitStartsFreshContext
  intro s hf
  exact exec_init_of_ready hf

/-- Settles O1: the reset values are the literals of R37. -/
theorem resetLeavesFreshContext : Obligations.ResetLeavesFreshContext := ⟨rfl, rfl, rfl, rfl, rfl⟩

/-- Settles O23: reset and INIT write the same four fields; a faulted INIT raises and stays faulted. -/
theorem resetAndInitDifferInFaultedOnly : Obligations.ResetAndInitDifferInFaultedOnly := by
  unfold Obligations.ResetAndInitDifferInFaultedOnly
  intro s t c rest h
  rw [step_of_reset rfl] at h
  injection h with h
  subst h
  refine ⟨rfl, fun hf => ?_, fun hf => ?_⟩
  · exact ⟨_, exec_init_of_ready hf, rfl, rfl, rfl, rfl⟩
  · exact ⟨_, exec_of_faulted rfl hf, hf⟩

/-! ### UPDATE and FINALIZE -/

/-- Absorbing nothing only enters `Absorbing`, when the pending bytes are fewer than a block (R144). -/
theorem absorb_nil {s : State} (h : s.buf.length ≤ 63) : s.absorb [] = s.withPhase .absorbing := by
  have hshort : s.buf.length < 64 := by omega
  simp only [State.absorb, pendingWith, List.append_nil, fullBlocks_of_short hshort,
    remainder_of_short hshort, compressBlocks_nil, List.length_nil, BitVec.add_zero, State.withPhase]

/-- Settles O18: an accepted UPDATE of no bytes absorbs nothing. -/
theorem emptyUpdateIsIdentity : Obligations.EmptyUpdateIsIdentity := by
  unfold Obligations.EmptyUpdateIsIdentity
  intro s hf hp hshort
  rw [exec_update_of_accepting ⟨hf, hp⟩, absorb_nil hshort]
  rfl

/-- Settles O19: the tail FINALIZE compresses is the padded one, and the digest is the state it leaves. -/
theorem finalizeReturnsTheDigest : Obligations.FinalizeReturnsTheDigest := by
  unfold Obligations.FinalizeReturnsTheDigest
  intro s h' hf hp hshort hh'
  rw [← pad_eq hshort] at hh'
  subst hh'
  exact exec_finalize_of_accepting ⟨hf, hp⟩

/-! ### COMPRESS -/

theorem payloadWellSized_chainBytes_append (x : Chain) {blocks : List Byte} (h : blocks.length % 64 = 0) :
    payloadWellSized (chainBytes x ++ blocks) = true := by
  rw [payloadWellSized_iff, List.length_append, chainBytes_length]
  omega

theorem blocksOperand_chainBytes_append (x : Chain) (blocks : List Byte) :
    blocksOperand (chainBytes x ++ blocks) = blocks := rfl

/-- Settles O21: the operand and the blocks are read back from the payload they were written to. -/
theorem compressReturnsTheNewState : Obligations.CompressReturnsTheNewState := by
  unfold Obligations.CompressReturnsTheNewState
  intro s x h' blocks hf hblocks hh'
  have hexec := exec_compress_of_wellSized hf (payloadWellSized_chainBytes_append x hblocks)
  rw [stateOperand_chainBytes_append, blocksOperand_chainBytes_append, ← hh'] at hexec
  exact hexec

theorem payloadWellSized_eq_false {payload : List Byte} (h : ¬ ∃ k, payload.length = 20 + 64 * k) :
    payloadWellSized payload = false := by
  rw [payloadWellSized_eq_false_iff]
  rintro ⟨hlen, hmod⟩
  exact h ⟨(payload.length - 20) / 64, by omega⟩

/-- Settles O22: a length that is no `20 + 64*k` is malformed, and `FAULT_BLOCKLEN` sets `FAULTED`. -/
theorem malformedCompressFaults : Obligations.MalformedCompressFaults := by
  unfold Obligations.MalformedCompressFaults
  intro s payload hf hlen
  exact exec_compress_of_malformed hf (payloadWellSized_eq_false hlen)

/-- COMPRESS answers in every state and leaves the context: at most `FAULTED` and the responses change (R112). -/
theorem exec_compress_keeps_context (payload : List Byte) (s : State) :
    ∃ t, exec (.compress payload) s = .next t ∧ t.h = s.h ∧ t.buf = s.buf ∧ t.len = s.len ∧
      t.phase = s.phase := by
  cases hf : s.faulted with
  | true => exact ⟨_, exec_of_faulted rfl hf, rfl, rfl, rfl, rfl⟩
  | false =>
    cases hw : payloadWellSized payload with
    | true => exact ⟨_, exec_compress_of_wellSized hf hw, rfl, rfl, rfl, rfl⟩
    | false => exact ⟨_, exec_compress_of_malformed hf hw, rfl, rfl, rfl, rfl⟩

/-- Settles O58: each command's row of the table, by the phase it meets. -/
theorem phaseFollowsTheTable : Obligations.PhaseFollowsTheTable := by
  unfold Obligations.PhaseFollowsTheTable
  refine fun s hf => ⟨⟨_, exec_init_of_ready hf, rfl⟩, fun data => ?_, ?_, fun payload => ?_⟩
  · by_cases hp : s.phase = .finalized
    · exact ⟨_, _, exec_update_of_finalized hf hp data, rfl, fun _ => ⟨hp, rfl⟩, fun h => absurd hp h⟩
    · exact ⟨_, _, exec_update_of_accepting ⟨hf, hp⟩ data, rfl, fun h => absurd h hp,
        fun _ => ⟨rfl, rfl⟩⟩
  · by_cases hp : s.phase = .finalized
    · exact ⟨_, _, exec_finalize_of_finalized hf hp, rfl, hp, fun _ => rfl, fun h => absurd hp h⟩
    · exact ⟨_, _, exec_finalize_of_accepting ⟨hf, hp⟩, rfl, rfl, fun h => absurd h hp, fun _ => rfl⟩
  · obtain ⟨t, ht, -, -, -, hphase⟩ := exec_compress_keeps_context payload s
    exact ⟨t, ht, hphase⟩

/-- Settles O59: the numbers are looked up; of five statuses none is above 4, of three phases none is 3. -/
theorem statusAndPhaseNumbers : Obligations.StatusAndPhaseNumbers := by
  unfold Obligations.StatusAndPhaseNumbers
  refine ⟨rfl, rfl, rfl, rfl, rfl, rfl, rfl, rfl, fun st => ?_, fun p => ?_, fun r => rfl⟩
  · cases st <;> decide
  · cases p <;> decide

end Sys2Proof.Machine

/-! PROOFS. Whole blocks in order, and the compression with a window of sixteen schedule words
(spec/40_compress.md R111, R114). -/

namespace Sys2Proof.Machine

/-! ### Blocks in order -/

/-- States that follow block by block are those `compressN` goes through. -/
theorem compressN_eq_of_chain {S : Nat → Chain} {blocks : List Byte} {k : Nat}
    (h : ∀ j, j < k → S (j + 1) = compressBlock (S j) ((blocks.drop (64 * j)).take 64)) :
    compressN k (S 0) blocks = S k := by
  induction k with
  | zero => rfl
  | succ k ih =>
    rw [compressN_add, ih fun j hj => h j (by omega), compressN_succ, compressN_zero,
      ← h k (Nat.lt_succ_self k)]

/-- Settles O44: `k` whole blocks are `k` compressions, each from the state before it. -/
theorem blocksAreCompressedInOrder : Obligations.BlocksAreCompressedInOrder := by
  unfold Obligations.BlocksAreCompressedInOrder
  intro S blocks k hlen h
  have hk : blocks.length / 64 = k := by omega
  rw [compressBlocks, Config.blockBytes, hk, compressN_eq_of_chain h]

/-! ### The window of sixteen words -/

/-- The words a window holds before round `t`: at most sixteen, the last one word `t - 1`. -/
def scheduleWindow (W : Nat → Word) (t : Nat) : List Word := (List.range' (t - 16) (min t 16)).map W

theorem scheduleWindow_getD {W : Nat → Word} {t i : Nat} (ht : 16 ≤ t) (hi : i < 16) :
    (scheduleWindow W t).getD i 0 = W (t - 16 + i) := by
  have hlt : i < min t 16 := by omega
  simp [scheduleWindow, List.getD_eq_getElem?_getD, hlt]

/-- Appending word `t`, and dropping the oldest once sixteen are held, makes the next window. -/
theorem scheduleWindow_succ (W : Nat → Word) (t : Nat) :
    (if t < 16 then scheduleWindow W t else (scheduleWindow W t).drop 1) ++ [W t] =
      scheduleWindow W (t + 1) := by
  split
  · next h =>
    rw [scheduleWindow, scheduleWindow, Nat.sub_eq_zero_of_le (by omega), Nat.sub_eq_zero_of_le (by omega),
      Nat.min_eq_left (by omega), Nat.min_eq_left (by omega), List.range'_1_concat, List.map_append,
      Nat.zero_add, List.map_singleton]
  · next h =>
    have hstart : t + 1 - 16 = t - 16 + 1 := by omega
    have hlast : t - 16 + 1 + 15 = t := by omega
    have hold : List.range' (t - 16) 16 = (t - 16) :: List.range' (t - 16 + 1) 15 := List.range'_succ
    have hnew : List.range' (t - 16 + 1) 16 = List.range' (t - 16 + 1) 15 ++ [t] := by
      rw [List.range'_1_concat, hlast]
    rw [scheduleWindow, scheduleWindow, Nat.min_eq_right (by omega), Nat.min_eq_right (by omega), hstart,
      hold, hnew, List.map_append, List.map_cons, List.drop_one, List.tail_cons, List.map_singleton]

/-- The word made from the window is the word of the schedule. -/
theorem window_word_eq {blk : List Byte} {W : Nat → Word} (hW : IsSchedule blk W) {t : Nat} (ht : t < 80) :
    (if t < 16 then be32At blk (4 * t)
      else rotl 1 ((scheduleWindow W t).getD 0 0 ^^^ (scheduleWindow W t).getD 2 0 ^^^
        (scheduleWindow W t).getD 8 0 ^^^ (scheduleWindow W t).getD 13 0)) = W t := by
  split
  · next h => exact (hW.loads t h).symm
  · next h =>
    have hlo : 16 ≤ t := by omega
    have h14 : t - 16 + 2 = t - 14 := by omega
    have h8 : t - 16 + 8 = t - 8 := by omega
    have h3 : t - 16 + 13 = t - 3 := by omega
    rw [scheduleWindow_getD hlo (by decide), scheduleWindow_getD hlo (by decide),
      scheduleWindow_getD hlo (by decide), scheduleWindow_getD hlo (by decide), Nat.add_zero, h14, h8, h3,
      rotl_eq_rotateLeft (by decide), ← hW.expands t hlo ht]

/-- Rounds over the window are rounds over the whole schedule. -/
theorem windowRounds_eq {blk : List Byte} {W : Nat → Word} (hW : IsSchedule blk W) {n t : Nat}
    (h : t + n ≤ 80) (v : Chain) :
    windowRounds blk n t (scheduleWindow W t) v = (List.range' t n).foldl (roundVars W) v := by
  induction n generalizing t v with
  | zero => rfl
  | succ n ih =>
    simp only [windowRounds]
    rw [window_word_eq hW (by omega), scheduleWindow_succ, ih (by omega), List.range'_succ,
      List.foldl_cons, roundVars, mix]

/-- Settles O47: both are the state plus the working variables after eighty rounds over the block's schedule. -/
theorem sixteenWordWindowSuffices : Obligations.SixteenWordWindowSuffices := by
  unfold Obligations.SixteenWordWindowSuffices
  intro S blk _
  have hW := isSchedule_scheduleWord blk
  have hrounds : windowRounds blk 80 0 [] S =
      (List.range 80).foldl (roundVars (scheduleWord blk)) S := by
    rw [List.range_eq_range']
    exact windowRounds_eq hW (t := 0) (by decide) S
  rw [windowCompress, hrounds, compressBlock_eq_addChain hW, addChain]

end Sys2Proof.Machine

/-! PROOFS. The context: the invariant of spec/10_state.md R35, the message a context holds, and whole messages
(spec/41_streaming.md R143, R145; spec/42_finalize.md R166; spec/30_encoding.md R85). -/

namespace Sys2Proof.Machine

/-! ### The context invariant -/

/-- Settles O50: the reset context is fresh. -/
theorem contextInvariantAtReset : Obligations.ContextInvariantAtReset where
  short := Nat.zero_le 63
  fresh _ := ⟨rfl, rfl, rfl⟩
  fill _ := rfl
  emptied := nofun

/-- The invariant speaks of the context's four fields only. -/
theorem State.ContextInv.congr {s t : State} (hs : s.ContextInv) (hh : t.h = s.h) (hbuf : t.buf = s.buf)
    (hlen : t.len = s.len) (hphase : t.phase = s.phase) : t.ContextInv where
  short := by rw [hbuf]; exact hs.short
  fresh hp := by rw [hh, hbuf, hlen]; exact hs.fresh (hphase ▸ hp)
  fill hp := by rw [hbuf, hlen]; exact hs.fill (hphase ▸ hp)
  emptied hp := by rw [hbuf]; exact hs.emptied (hphase ▸ hp)

theorem contextInv_freshContext (s : State) : s.freshContext.ContextInv :=
  contextInvariantAtReset.congr rfl rfl rfl rfl

theorem contextInv_hostReset (s : State) : s.hostReset.ContextInv :=
  contextInvariantAtReset.congr rfl rfl rfl rfl

theorem contextInv_close (s : State) : s.close.ContextInv where
  short := Nat.zero_le 63
  fresh := nofun
  fill hp := absurd rfl hp
  emptied _ := rfl

/-- The fill follows the counter modulo 64, across the counter's wrap, since 64 divides `2^64`. -/
theorem contextInv_absorb {s : State} (hs : s.ContextInv) (hp : s.phase ≠ .finalized)
    (data : List Byte) : (s.absorb data).ContextInv where
  short := by
    rw [State.absorb_buf, remainder_length]
    omega
  fresh := nofun
  fill _ := by
    have hfill := hs.fill hp
    rw [State.absorb_buf, remainder_pendingWith_length, State.absorb_len, BitVec.toNat_add,
      BitVec.toNat_ofNat]
    omega
  emptied := nofun

theorem CommandAnswer.contextInv {s u : State} {op : Byte} {payload : List Byte} {r : Response}
    (ha : CommandAnswer s op payload u r) (hs : s.ContextInv) : u.ContextInv := by
  cases ha with
  | init => exact contextInv_freshContext s
  | update _ hp => exact contextInv_absorb hs hp _
  | finalize => exact contextInv_close s
  | malformed => exact hs.congr rfl rfl rfl rfl
  | faulted | rejected | updateFinalized | finalizeFinalized | compress => exact hs

/-- Settles O51: idle steps keep the context, resets make a fresh one, and every clause of a command keeps the
invariant. -/
theorem stepKeepsContextInvariant : Obligations.StepKeepsContextInvariant := by
  unfold Obligations.StepKeepsContextInvariant
  intro s t hs h
  obtain ⟨-, rfl⟩ | ⟨c, rest, -, rfl⟩ | ⟨op, payload, rest, u, r, -, ha, rfl⟩ := step_next_cases h
  · exact hs
  · exact contextInv_hostReset _
  · exact (ha.contextInv (hs.congr rfl rfl rfl rfl)).congr rfl rfl rfl rfl

/-! ### Absorbing in pieces -/

theorem fullBlocks_length_mod (x : List Byte) : (fullBlocks x).length % 64 = 0 := by
  rw [fullBlocks_length]
  omega

/-- Absorbing two pieces is absorbing their concatenation (R145). -/
theorem absorb_absorb (s : State) (d1 d2 : List Byte) :
    (s.absorb d1).absorb d2 = s.absorb (d1 ++ d2) := by
  have hx : pendingWith s.buf (d1 ++ d2) = pendingWith s.buf d1 ++ d2 := (List.append_assoc _ _ _).symm
  have hlen : s.len + BitVec.ofNat 64 d1.length + BitVec.ofNat 64 d2.length =
      s.len + BitVec.ofNat 64 (d1 ++ d2).length := by
    rw [List.length_append, BitVec.ofNat_add, BitVec.add_assoc]
  simp only [State.absorb, hx, fullBlocks_append (pendingWith s.buf d1),
    remainder_append (pendingWith s.buf d1),
    compressBlocks_append _ _ _ (fullBlocks_length_mod _), hlen]
  rfl

theorem accepting_after_update {s : State} (data : List Byte) (hf : s.faulted = false) :
    ((s.absorb data).respond .ok []).Accepting := ⟨hf, nofun⟩

/-- Settles O48: both ways leave the same engine state, from which FINALIZE gives the same digest. -/
theorem splitUpdatesAgree : Obligations.SplitUpdatesAgree := by
  unfold Obligations.SplitUpdatesAgree
  intro s d1 d2 hf hp
  have hsame : SameEngine ((((s.absorb d1).respond .ok []).absorb d2).respond .ok [])
      ((s.absorb (d1 ++ d2)).respond .ok []) := by
    rw [← absorb_absorb]
    exact ⟨rfl, rfl, rfl, rfl, rfl⟩
  have ht1 := accepting_after_update d1 hf
  have ht2 := accepting_after_update d2 ht1.1
  refine ⟨_, _, _, _, _, exec_update_of_accepting ⟨hf, hp⟩ d1, exec_update_of_accepting ht1 d2,
    exec_update_of_accepting ⟨hf, hp⟩ (d1 ++ d2), hsame, exec_finalize_of_accepting ht2,
    exec_finalize_of_accepting (accepting_after_update (d1 ++ d2) hf), ?_, ?_⟩
  · rw [State.respond_responses, State.respond_responses, List.getLast?_concat, List.getLast?_concat,
      hsame.close.h]
  · rw [hsame.close.h]
    exact hsame.close.respond _ _

/-- Absorbing does not read the phase. -/
theorem withPhase_absorb (s : State) (p : Phase) (data : List Byte) :
    (s.withPhase p).absorb data = s.absorb data := rfl

/-- One byte of the byte-serial form is an absorption of that byte, but for the phase (R143). -/
theorem absorbByte_eq_absorb {s : State} (h : s.buf.length ≤ 63) (x : Byte) :
    absorbByte s x = (s.absorb [x]).withPhase s.phase := by
  have hlen : (s.buf ++ [x]).length = s.buf.length + 1 := by simp
  unfold absorbByte State.absorb State.withPhase pendingWith
  split
  · next h64 =>
    have hfull : fullBlocks (s.buf ++ [x]) = s.buf ++ [x] := by
      rw [fullBlocks, h64]
      exact List.take_of_length_le (Nat.le_of_eq h64)
    have hrem : remainder (s.buf ++ [x]) = [] := by
      rw [remainder, h64]
      exact List.drop_of_length_le (Nat.le_of_eq h64)
    rw [hfull, hrem, compressBlocks_one _ h64]
    rfl
  · next h64 =>
    have hshort : (s.buf ++ [x]).length < 64 := by omega
    rw [fullBlocks_of_short hshort, remainder_of_short hshort, compressBlocks_nil]
    rfl

/-- The bytes one by one are the bytes at once. -/
theorem foldl_absorbByte_eq_absorb {s : State} (h : s.buf.length ≤ 63) (data : List Byte) :
    data.foldl absorbByte s = (s.absorb data).withPhase s.phase := by
  induction data generalizing s with
  | nil => rw [absorb_nil h]; rfl
  | cons x data ih =>
    have hshort : (absorbByte s x).buf.length ≤ 63 := by
      rw [absorbByte_eq_absorb h]
      change (remainder (pendingWith s.buf [x])).length ≤ 63
      rw [remainder_length]
      omega
    rw [List.foldl_cons, ih hshort, absorbByte_eq_absorb h, withPhase_absorb, absorb_absorb]
    rfl

/-- Settles O49: UPDATE is the byte-serial form with the phase set and the response given. -/
theorem byteSerialUpdateAgrees : Obligations.ByteSerialUpdateAgrees := by
  unfold Obligations.ByteSerialUpdateAgrees
  intro s data hf hp h
  rw [exec_update_of_accepting ⟨hf, hp⟩, foldl_absorbByte_eq_absorb h]
  rfl

/-! ### The message a context holds -/

/-- The empty message is held by a fresh context. -/
theorem holds_nil_of_fresh {s : State} (hh : s.h = iv) (hbuf : s.buf = []) (hlen : s.len = 0#64)
    (hp : s.phase = .empty) : s.Holds [] where
  counter := hlen
  pending := hbuf
  folded := hh
  notFinal := by rw [hp]; nofun

/-- What a context holds is said of its four fields only. -/
theorem State.Holds.congr {s t : State} {m : List Byte} (hs : s.Holds m) (hh : t.h = s.h)
    (hbuf : t.buf = s.buf) (hlen : t.len = s.len) (hphase : t.phase = s.phase) : t.Holds m where
  counter := hlen.trans hs.counter
  pending := hbuf.trans hs.pending
  folded := hh.trans hs.folded
  notFinal := by rw [hphase]; exact hs.notFinal

/-- The pending bytes and the whole blocks of a held message, in the model's words. -/
theorem State.Holds.buf_eq {s : State} {m : List Byte} (hs : s.Holds m) : s.buf = remainder m := hs.pending

theorem State.Holds.h_eq {s : State} {m : List Byte} (hs : s.Holds m) :
    s.h = compressBlocks iv (fullBlocks m) := hs.folded

/-- Absorbing bytes appends them to the message held. -/
theorem holds_absorb {s : State} {m : List Byte} (hs : s.Holds m) (data : List Byte) :
    (s.absorb data).Holds (m ++ data) where
  counter := by rw [State.absorb_len, hs.counter, List.length_append, BitVec.ofNat_add]
  pending := by
    rw [State.absorb_buf, pendingWith, hs.buf_eq, ← remainder_append]
    rfl
  folded := by
    rw [State.absorb_h, pendingWith, hs.buf_eq, hs.h_eq,
      ← compressBlocks_append _ _ _ (fullBlocks_length_mod m), ← fullBlocks_append]
    rfl
  notFinal := nofun

/-- Settles O52: a fresh context holds the empty message, UPDATE absorbs, COMPRESS keeps the context. -/
theorem contextHoldsTheMessage : Obligations.ContextHoldsTheMessage := by
  unfold Obligations.ContextHoldsTheMessage
  refine ⟨holds_nil_of_fresh rfl rfl rfl rfl, fun s hf => ?_, fun s m d hf hs => ?_, fun s m p hs => ?_⟩
  · exact ⟨_, exec_init_of_ready hf, holds_nil_of_fresh rfl rfl rfl rfl⟩
  · exact ⟨_, exec_update_of_accepting ⟨hf, hs.notFinal⟩ d, (holds_absorb hs d).congr rfl rfl rfl rfl⟩
  · obtain ⟨t, ht, hh, hbuf, hlen, hphase⟩ := exec_compress_keeps_context p s
    exact ⟨t, ht, hs.congr hh hbuf hlen hphase⟩

/-! ### The digest of a held message -/

/-- The padded message is its whole blocks and then the padded tail of what is left. -/
theorem fullBlocks_append_pad (m : List Byte) :
    fullBlocks m ++ pad (remainder m) (BitVec.ofNat 64 m.length) = paddedMessage m := by
  have hcount : bitcount (BitVec.ofNat 64 m.length) = BitVec.ofNat 64 (8 * m.length) := by
    apply BitVec.eq_of_toNat_eq
    rw [bitcount_toNat, BitVec.toNat_ofNat, BitVec.toNat_ofNat, Nat.mod_mul_mod, Nat.mul_comm]
  have hfill : zeroFill (remainder m).length = (119 - m.length % 64) % 64 := by
    rw [zeroFill, remainder_length, Nat.mod_mod]
  rw [pad, padWith, hcount, hfill, ← List.append_assoc, ← List.append_assoc, ← List.append_assoc,
    fullBlocks_append_remainder, paddedMessage, marker, zeros]

theorem close_h_of_holds {s : State} {m : List Byte} (hs : s.Holds m) :
    s.close.h = compressBlocks iv (paddedMessage m) := by
  rw [State.close_h, hs.buf_eq, hs.h_eq, hs.counter, ← compressBlocks_append _ _ _ (fullBlocks_length_mod m),
    fullBlocks_append_pad]

/-- Settles O53: FINALIZE continues the fold over the whole blocks with the padded tail. -/
theorem wholeMessageDigest : Obligations.WholeMessageDigest := by
  unfold Obligations.WholeMessageDigest
  intro s m hf hs _
  refine ⟨_, exec_finalize_of_accepting ⟨hf, hs.notFinal⟩, rfl, ?_⟩
  rw [close_h_of_holds hs]
  rfl

/-! ### Whole runs -/

/-- A run in two parts. -/
theorem run_add {k : Nat} {s t : State} (h : Host.Core.run core k s = .next t) (n : Nat) :
    Host.Core.run core (k + n) s = Host.Core.run core n t := by
  induction k generalizing s with
  | zero => injection h with h; rw [h, Nat.zero_add]
  | succ k ih =>
    obtain ⟨u, hu, hrun⟩ := run_succ_next h
    rw [Nat.succ_add, run_succ hu, ih hrun]

section
variable {s : State} {m : List Byte} {later : List HostAction}

/-- A step that runs INIT begins the empty message. -/
theorem exists_step_init (hf : s.faulted = false) (hh : s.host = .command 0x00#8 [] :: later) :
    ∃ u : State, step s = .next u ∧ u.host = later ∧ u.faulted = false ∧ u.Holds [] ∧
      u.responses = s.responses ++ [⟨.ok, []⟩] :=
  ⟨_, step_of_commandAnswer hh (.init hf), rfl, hf, holds_nil_of_fresh rfl rfl rfl rfl, rfl⟩

/-- A step that runs UPDATE appends its payload to the message held. -/
theorem exists_step_update {d : List Byte} (hf : s.faulted = false) (hs : s.Holds m)
    (hh : s.host = .command 0x01#8 d :: later) :
    ∃ u : State, step s = .next u ∧ u.host = later ∧ u.faulted = false ∧ u.Holds (m ++ d) ∧
      u.responses = s.responses ++ [⟨.ok, []⟩] :=
  ⟨_, step_of_commandAnswer hh (.update hf hs.notFinal), rfl, hf,
    (holds_absorb hs d).congr rfl rfl rfl rfl, rfl⟩

/-- A step that runs FINALIZE answers the digest of the message held. -/
theorem exists_step_finalize (hf : s.faulted = false) (hs : s.Holds m)
    (hh : s.host = .command 0x02#8 [] :: later) :
    ∃ u : State, step s = .next u ∧ u.host = later ∧ u.phase = .finalized ∧ u.faulted = false ∧
      u.responses = s.responses ++ [⟨.ok, chainBytes (compressBlocks iv (paddedMessage m))⟩] := by
  refine ⟨_, step_of_commandAnswer hh (.finalize hf hs.notFinal), rfl, rfl, hf, ?_⟩
  rw [← close_h_of_holds hs]
  rfl

/-- UPDATEs in a row append their pieces to the message held, and answer `OK` each. -/
theorem run_updates {pieces : List (List Byte)} (hf : s.faulted = false) (hs : s.Holds m)
    (hh : s.host = pieces.map (HostAction.command 0x01#8) ++ later) :
    ∃ t : State, Host.Core.run core pieces.length s = .next t ∧ t.host = later ∧ t.faulted = false ∧
      t.Holds (m ++ pieces.flatten) ∧
      t.responses = s.responses ++ List.replicate pieces.length ⟨.ok, []⟩ := by
  induction pieces generalizing s m with
  | nil =>
    exact ⟨s, rfl, hh, hf, by rwa [List.flatten_nil, List.append_nil], (List.append_nil _).symm⟩
  | cons d pieces ih =>
    obtain ⟨u, hu, hhost, hfaulted, hholds, hresp⟩ := exists_step_update hf hs hh
    obtain ⟨t, hrun, hhost', hfaulted', hholds', hresp'⟩ := ih hfaulted hholds hhost
    refine ⟨t, (run_succ hu _).trans hrun, hhost', hfaulted', ?_, ?_⟩
    · rwa [List.flatten_cons, ← List.append_assoc]
    · rw [hresp', hresp, List.append_assoc, List.length_cons, List.replicate_succ, List.singleton_append]

end

/-- Settles O54: INIT begins the empty message, the UPDATEs append the pieces, FINALIZE gives the digest. -/
theorem streamedMessageRunsToItsDigest : Obligations.StreamedMessageRunsToItsDigest := by
  unfold Obligations.StreamedMessageRunsToItsDigest
  intro s pieces rest hf hh _
  obtain ⟨u, hu, hhost, hfaulted, hholds, hresp⟩ := exists_step_init hf hh
  obtain ⟨v, hv, hhost', hfaulted', hholds', hresp'⟩ := run_updates hfaulted hholds hhost
  obtain ⟨t, ht, hhost'', hphase, hfaulted'', hresp''⟩ := exists_step_finalize hfaulted' hholds' hhost'
  refine ⟨t, ?_, hhost'', hphase, hfaulted'', ?_⟩
  · rw [run_succ hu, run_add hv, run_succ ht, run_zero]
  · rw [hresp'', hresp', hresp, List.replicate_succ, List.append_assoc s.responses, List.singleton_append,
      List.nil_append]
    rfl

end Sys2Proof.Machine
